-- ==== Sys2Proof/Word.lean ====
section
/-! DEFINITION. The word types of the machine (00_scope.md R5, R7: every quantity is an unsigned number). -/
namespace Sys2Proof

/-- A byte: a general register, a timer, a memory cell (R5, R10, R16, R30). -/
abbrev Byte := BitVec 8

/-- A 16-bit quantity: `I`, `PC`, a stack slot, an opcode (R12, R13, R15, R50). -/
abbrev Word := BitVec 16

/-- The number of a general register, 0 to 15 (R10, R52). -/
abbrev Reg := Fin 16

/-- Register 15, `VF`, the register six operations use as a flag (R11). -/
abbrev regF : Reg := 15

end Sys2Proof
end

