-- ==== Sys2Proof/Syntax.lean ====
section
/-! DEFINITION. The instructions: one constructor per row of spec/opcode_table.json, in the table's order
(30_encoding.md R55). Operands are named as the spec names its fields (R51): `x`, `y` register numbers, `n` a
count of sprite rows, `nn` an 8-bit and `nnn` a 12-bit immediate. -/
namespace Sys2Proof

inductive Instr where
  /-- 00E0 `CLS` (R110). -/
  | cls
  /-- 00EE `RET` (R70). -/
  | ret
  /-- 1NNN `JP nnn` (R71). -/
  | jp (nnn : BitVec 12)
  /-- 2NNN `CALL nnn` (R72). -/
  | call (nnn : BitVec 12)
  /-- 3XNN `SE Vx, nn` (R73). -/
  | seImm (x : Reg) (nn : Byte)
  /-- 4XNN `SNE Vx, nn` (R74). -/
  | sneImm (x : Reg) (nn : Byte)
  /-- 5XY0 `SE Vx, Vy` (R75). -/
  | seReg (x y : Reg)
  /-- 6XNN `LD Vx, nn` (R80). -/
  | ldImm (x : Reg) (nn : Byte)
  /-- 7XNN `ADD Vx, nn` (R81). -/
  | addImm (x : Reg) (nn : Byte)
  /-- 8XY0 `LD Vx, Vy` (R82). -/
  | ldReg (x y : Reg)
  /-- 8XY1 `OR Vx, Vy` (R83). -/
  | orReg (x y : Reg)
  /-- 8XY2 `AND Vx, Vy` (R84). -/
  | andReg (x y : Reg)
  /-- 8XY3 `XOR Vx, Vy` (R85). -/
  | xorReg (x y : Reg)
  /-- 8XY4 `ADD Vx, Vy` (R86). -/
  | addReg (x y : Reg)
  /-- 8XY5 `SUB Vx, Vy` (R87). -/
  | subReg (x y : Reg)
  /-- 8XY6 `SHR Vx` (R88); `y` is encoded and ignored. -/
  | shr (x y : Reg)
  /-- 8XY7 `SUBN Vx, Vy` (R89). -/
  | subnReg (x y : Reg)
  /-- 8XYE `SHL Vx` (R90); `y` is encoded and ignored. -/
  | shl (x y : Reg)
  /-- 9XY0 `SNE Vx, Vy` (R76). -/
  | sneReg (x y : Reg)
  /-- ANNN `LD I, nnn` (R100). -/
  | ldI (nnn : BitVec 12)
  /-- BNNN `JP V0, nnn` (R77). -/
  | jpV0 (nnn : BitVec 12)
  /-- CXNN `RND Vx, nn` (R91). -/
  | rnd (x : Reg) (nn : Byte)
  /-- DXYN `DRW Vx, Vy, n` (R111). -/
  | drw (x y : Reg) (n : Fin 16)
  /-- EX9E `SKP Vx` (R120). -/
  | skp (x : Reg)
  /-- EXA1 `SKNP Vx` (R121). -/
  | sknp (x : Reg)
  /-- FX07 `LD Vx, DT` (R122). -/
  | ldVxDt (x : Reg)
  /-- FX0A `LD Vx, K` (R123). -/
  | ldVxKey (x : Reg)
  /-- FX15 `LD DT, Vx` (R124). -/
  | ldDtVx (x : Reg)
  /-- FX18 `LD ST, Vx` (R125). -/
  | ldStVx (x : Reg)
  /-- FX1E `ADD I, Vx` (R101). -/
  | addI (x : Reg)
  /-- FX29 `LD F, Vx` (R102). -/
  | ldFont (x : Reg)
  /-- FX33 `LD B, Vx` (R103). -/
  | ldBcd (x : Reg)
  /-- FX55 `LD [I], Vx` (R104); `x` is a count. -/
  | storeRegs (x : Reg)
  /-- FX65 `LD Vx, [I]` (R105); `x` is a count. -/
  | loadRegs (x : Reg)
  /-- Any opcode no pattern matches: a two-byte no-op with a diagnostic (R56). It carries the opcode, which the
  diagnostic reports (R138). -/
  | unrecognized (opcode : Word)
  deriving DecidableEq, Repr

end Sys2Proof
end

