-- ==== Sys2Proof/Decode.lean ====
section
/-! DEFINITION. The decoder, the encoder and the opcode table (30_encoding.md R50 to R57), and the reading of a
table word that the host asks for. -/
namespace Sys2Proof

/-- A row of the opcode map: an opcode is the row's pattern when `opcode AND mask = pattern` (R54). -/
structure Row where
  mask : Word
  pattern : Word
  deriving DecidableEq, Repr

/-- The row selects the opcode (R54). -/
def Row.selects (r : Row) (opcode : Word) : Bool := opcode &&& r.mask == r.pattern

/-- The masks of the six formats (R53). -/
def maskFix : Word := 0xFFFF#16
def maskNnn : Word := 0xF000#16
def maskXnn : Word := 0xF000#16
def maskXy : Word := 0xF00F#16
def maskXyn : Word := 0xF000#16
def maskX : Word := 0xF0FF#16

/-- The opcode map's 34 patterns in the source's order (R55). -/
def opcodeTable : List Row :=
  [⟨maskFix, 0x00E0#16⟩, ⟨maskFix, 0x00EE#16⟩, ⟨maskNnn, 0x1000#16⟩, ⟨maskNnn, 0x2000#16⟩,
    ⟨maskXnn, 0x3000#16⟩, ⟨maskXnn, 0x4000#16⟩, ⟨maskXy, 0x5000#16⟩, ⟨maskXnn, 0x6000#16⟩,
    ⟨maskXnn, 0x7000#16⟩] ++
  [⟨maskXy, 0x8000#16⟩, ⟨maskXy, 0x8001#16⟩, ⟨maskXy, 0x8002#16⟩, ⟨maskXy, 0x8003#16⟩,
    ⟨maskXy, 0x8004#16⟩, ⟨maskXy, 0x8005#16⟩, ⟨maskXy, 0x8006#16⟩, ⟨maskXy, 0x8007#16⟩,
    ⟨maskXy, 0x800E#16⟩, ⟨maskXy, 0x9000#16⟩] ++
  [⟨maskNnn, 0xA000#16⟩, ⟨maskNnn, 0xB000#16⟩, ⟨maskXnn, 0xC000#16⟩, ⟨maskXyn, 0xD000#16⟩,
    ⟨maskX, 0xE09E#16⟩, ⟨maskX, 0xE0A1#16⟩] ++
  [⟨maskX, 0xF007#16⟩, ⟨maskX, 0xF00A#16⟩, ⟨maskX, 0xF015#16⟩, ⟨maskX, 0xF018#16⟩,
    ⟨maskX, 0xF01E#16⟩, ⟨maskX, 0xF029#16⟩, ⟨maskX, 0xF033#16⟩, ⟨maskX, 0xF055#16⟩,
    ⟨maskX, 0xF065#16⟩]

/-- Some pattern matches the opcode; the others are the unrecognized opcodes (R56). -/
def recognized (opcode : Word) : Bool := opcodeTable.any fun r => r.selects opcode

/-- The field `op`, bits 15..12 (R51). -/
def fieldOp (w : Word) : BitVec 4 := w.extractLsb' 12 4
/-- The field `x`, bits 11..8 (R51). -/
def fieldX (w : Word) : Reg := (w.extractLsb' 8 4).toFin
/-- The field `y`, bits 7..4 (R51). -/
def fieldY (w : Word) : Reg := (w.extractLsb' 4 4).toFin
/-- The field `n`, bits 3..0 (R51). -/
def fieldN (w : Word) : Fin 16 := (w.extractLsb' 0 4).toFin
/-- The field `nn`, bits 7..0 (R51). -/
def fieldNn (w : Word) : Byte := w.extractLsb' 0 8
/-- The field `nnn`, bits 11..0 (R51). -/
def fieldNnn (w : Word) : BitVec 12 := w.extractLsb' 0 12

/-- The opcodes with leading digit 0 (R55 rows 1, 2; R57 (a)). -/
def decode0 (w : Word) : Instr :=
  if w = 0x00E0#16 then .cls else if w = 0x00EE#16 then .ret else .unrecognized w

/-- The opcodes with leading digit 5 (R55 row 7; R57 (b)). -/
def decode5 (w : Word) : Instr :=
  if fieldN w = 0 then .seReg (fieldX w) (fieldY w) else .unrecognized w

/-- The opcodes with leading digit 8 (R55 rows 10 to 18; R57 (c)). -/
def decode8 (w : Word) : Instr :=
  match (fieldN w).val with
  | 0x0 => .ldReg (fieldX w) (fieldY w)
  | 0x1 => .orReg (fieldX w) (fieldY w)
  | 0x2 => .andReg (fieldX w) (fieldY w)
  | 0x3 => .xorReg (fieldX w) (fieldY w)
  | 0x4 => .addReg (fieldX w) (fieldY w)
  | 0x5 => .subReg (fieldX w) (fieldY w)
  | 0x6 => .shr (fieldX w) (fieldY w)
  | 0x7 => .subnReg (fieldX w) (fieldY w)
  | 0xE => .shl (fieldX w) (fieldY w)
  | _ => .unrecognized w

/-- The opcodes with leading digit 9 (R55 row 19; R57 (d)). -/
def decode9 (w : Word) : Instr :=
  if fieldN w = 0 then .sneReg (fieldX w) (fieldY w) else .unrecognized w

/-- The opcodes with leading digit E (R55 rows 24, 25; R57 (e)). -/
def decodeE (w : Word) : Instr :=
  if fieldNn w = 0x9E#8 then .skp (fieldX w)
  else if fieldNn w = 0xA1#8 then .sknp (fieldX w)
  else .unrecognized w

/-- The opcodes with leading digit F (R55 rows 26 to 34; R57 (f)). -/
def decodeF (w : Word) : Instr :=
  if fieldNn w = 0x07#8 then .ldVxDt (fieldX w)
  else if fieldNn w = 0x0A#8 then .ldVxKey (fieldX w)
  else if fieldNn w = 0x15#8 then .ldDtVx (fieldX w)
  else if fieldNn w = 0x18#8 then .ldStVx (fieldX w)
  else if fieldNn w = 0x1E#8 then .addI (fieldX w)
  else if fieldNn w = 0x29#8 then .ldFont (fieldX w)
  else if fieldNn w = 0x33#8 then .ldBcd (fieldX w)
  else if fieldNn w = 0x55#8 then .storeRegs (fieldX w)
  else if fieldNn w = 0x65#8 then .loadRegs (fieldX w)
  else .unrecognized w

/-- The instruction an opcode is: dispatch on the leading digit, then on the literal digits that are left, all of
which are tested (R54, decision D5). The last arm is the leading digit F. Total: an opcode no pattern matches is `unrecognized` (R56). -/
def decodeWord (w : Word) : Instr :=
  match (fieldOp w).toNat with
  | 0x0 => decode0 w
  | 0x1 => .jp (fieldNnn w)
  | 0x2 => .call (fieldNnn w)
  | 0x3 => .seImm (fieldX w) (fieldNn w)
  | 0x4 => .sneImm (fieldX w) (fieldNn w)
  | 0x5 => decode5 w
  | 0x6 => .ldImm (fieldX w) (fieldNn w)
  | 0x7 => .addImm (fieldX w) (fieldNn w)
  | 0x8 => decode8 w
  | 0x9 => decode9 w
  | 0xA => .ldI (fieldNnn w)
  | 0xB => .jpV0 (fieldNnn w)
  | 0xC => .rnd (fieldX w) (fieldNn w)
  | 0xD => .drw (fieldX w) (fieldY w) (fieldN w)
  | 0xE => decodeE w
  | _ => decodeF w

/-- The two bytes of a word, in the order they are stored: the high byte at the lower address (R35, R50). -/
def bytesOfWord (w : Word) : List Byte := [w.extractLsb' 8 8, w.extractLsb' 0 8]

/-- The word of two bytes, `hi ## lo` (R35). -/
def wordOfBytes (hi lo : Byte) : Word := hi ++ lo

/-- Why a list of bytes holds no instruction: only that it ends before the second byte (R50). -/
inductive DecodeError where
  /-- Fewer than two bytes are left. -/
  | truncated
  deriving DecidableEq, Repr

/-- The instruction at the head of a list of bytes, with the bytes after it (R50: exactly two bytes each). -/
def decode : List Byte → Except DecodeError (Instr × List Byte)
  | hi :: lo :: rest => .ok (decodeWord (wordOfBytes hi lo), rest)
  | _ => .error .truncated

/-- Format `NNN` (R53). -/
def encNnn (op : BitVec 4) (nnn : BitVec 12) : Word := op ++ nnn
/-- Formats `XNN` and `X` (R53): the low byte is the immediate or the literal byte. -/
def encXnn (op : BitVec 4) (x : Reg) (nn : Byte) : Word := op ++ (BitVec.ofFin x : BitVec 4) ++ nn
/-- Formats `XY` and `XYN` (R53): the last digit is the literal digit or the count. -/
def encXyn (op : BitVec 4) (x y n : Fin 16) : Word :=
  op ++ (BitVec.ofFin x : BitVec 4) ++ (BitVec.ofFin y : BitVec 4) ++ (BitVec.ofFin n : BitVec 4)

/-- The opcode of an instruction, from the formats of R53 and the match values of R55. -/
def encodeWord : Instr → Word
  | .cls => 0x00E0#16
  | .ret => 0x00EE#16
  | .jp nnn => encNnn 0x1#4 nnn
  | .call nnn => encNnn 0x2#4 nnn
  | .seImm x nn => encXnn 0x3#4 x nn
  | .sneImm x nn => encXnn 0x4#4 x nn
  | .seReg x y => encXyn 0x5#4 x y 0x0
  | .ldImm x nn => encXnn 0x6#4 x nn
  | .addImm x nn => encXnn 0x7#4 x nn
  | .ldReg x y => encXyn 0x8#4 x y 0x0
  | .orReg x y => encXyn 0x8#4 x y 0x1
  | .andReg x y => encXyn 0x8#4 x y 0x2
  | .xorReg x y => encXyn 0x8#4 x y 0x3
  | .addReg x y => encXyn 0x8#4 x y 0x4
  | .subReg x y => encXyn 0x8#4 x y 0x5
  | .shr x y => encXyn 0x8#4 x y 0x6
  | .subnReg x y => encXyn 0x8#4 x y 0x7
  | .shl x y => encXyn 0x8#4 x y 0xE
  | .sneReg x y => encXyn 0x9#4 x y 0x0
  | .ldI nnn => encNnn 0xA#4 nnn
  | .jpV0 nnn => encNnn 0xB#4 nnn
  | .rnd x nn => encXnn 0xC#4 x nn
  | .drw x y n => encXyn 0xD#4 x y n
  | .skp x => encXnn 0xE#4 x 0x9E#8
  | .sknp x => encXnn 0xE#4 x 0xA1#8
  | .ldVxDt x => encXnn 0xF#4 x 0x07#8
  | .ldVxKey x => encXnn 0xF#4 x 0x0A#8
  | .ldDtVx x => encXnn 0xF#4 x 0x15#8
  | .ldStVx x => encXnn 0xF#4 x 0x18#8
  | .addI x => encXnn 0xF#4 x 0x1E#8
  | .ldFont x => encXnn 0xF#4 x 0x29#8
  | .ldBcd x => encXnn 0xF#4 x 0x33#8
  | .storeRegs x => encXnn 0xF#4 x 0x55#8
  | .loadRegs x => encXnn 0xF#4 x 0x65#8
  | .unrecognized opcode => opcode

/-- The bytes of an instruction in the order they are stored (R50). -/
def encode (i : Instr) : List Byte := bytesOfWord (encodeWord i)

/-- The row of the opcode map an instruction belongs to (R55); the fallback row has no mask and no match. -/
def Instr.row : Instr → Option Row
  | .cls => some ⟨maskFix, 0x00E0#16⟩
  | .ret => some ⟨maskFix, 0x00EE#16⟩
  | .jp _ => some ⟨maskNnn, 0x1000#16⟩
  | .call _ => some ⟨maskNnn, 0x2000#16⟩
  | .seImm _ _ => some ⟨maskXnn, 0x3000#16⟩
  | .sneImm _ _ => some ⟨maskXnn, 0x4000#16⟩
  | .seReg _ _ => some ⟨maskXy, 0x5000#16⟩
  | .ldImm _ _ => some ⟨maskXnn, 0x6000#16⟩
  | .addImm _ _ => some ⟨maskXnn, 0x7000#16⟩
  | .ldReg _ _ => some ⟨maskXy, 0x8000#16⟩
  | .orReg _ _ => some ⟨maskXy, 0x8001#16⟩
  | .andReg _ _ => some ⟨maskXy, 0x8002#16⟩
  | .xorReg _ _ => some ⟨maskXy, 0x8003#16⟩
  | .addReg _ _ => some ⟨maskXy, 0x8004#16⟩
  | .subReg _ _ => some ⟨maskXy, 0x8005#16⟩
  | .shr _ _ => some ⟨maskXy, 0x8006#16⟩
  | .subnReg _ _ => some ⟨maskXy, 0x8007#16⟩
  | .shl _ _ => some ⟨maskXy, 0x800E#16⟩
  | .sneReg _ _ => some ⟨maskXy, 0x9000#16⟩
  | .ldI _ => some ⟨maskNnn, 0xA000#16⟩
  | .jpV0 _ => some ⟨maskNnn, 0xB000#16⟩
  | .rnd _ _ => some ⟨maskXnn, 0xC000#16⟩
  | .drw _ _ _ => some ⟨maskXyn, 0xD000#16⟩
  | .skp _ => some ⟨maskX, 0xE09E#16⟩
  | .sknp _ => some ⟨maskX, 0xE0A1#16⟩
  | .ldVxDt _ => some ⟨maskX, 0xF007#16⟩
  | .ldVxKey _ => some ⟨maskX, 0xF00A#16⟩
  | .ldDtVx _ => some ⟨maskX, 0xF015#16⟩
  | .ldStVx _ => some ⟨maskX, 0xF018#16⟩
  | .addI _ => some ⟨maskX, 0xF01E#16⟩
  | .ldFont _ => some ⟨maskX, 0xF029#16⟩
  | .ldBcd _ => some ⟨maskX, 0xF033#16⟩
  | .storeRegs _ => some ⟨maskX, 0xF055#16⟩
  | .loadRegs _ => some ⟨maskX, 0xF065#16⟩
  | .unrecognized _ => none

/-- The opcode of a table row's word: its low `nbits` bits, every bit above them 0. An instruction is one 16-bit word,
so the table's bit 0 is bit 0 of the opcode (R50, R51). -/
def tableWord (nbits w : Nat) : Word := BitVec.ofNat 16 (w % 2 ^ nbits)

/-- What the decoder reads from the bytes of a table row's word, laid out as they are stored. -/
def decodeTableWord (nbits w : Nat) : Option Instr :=
  match decode (bytesOfWord (tableWord nbits w)) with
  | .ok (i, _) => some i
  | .error _ => none

end Sys2Proof
end

