-- ==== Sys2Proof/Config.lean ====
section
/-! DEFINITION. The fixed sizes (00_scope.md R5), the two parameters the spec names, `FONT` and `RND_MAX` (R6), and the
free values of the machine, constants with no body: nothing can evaluate one or prove a value of it. -/
namespace Sys2Proof

/-- `MEM_SIZE`: addresses 0 to 4095 (R5, R30). -/
def Config.memSize : Nat := 4096
/-- `PROG_BASE`: the load address and the reset value of `PC` (R5). -/
def Config.progBase : Nat := 512
/-- `PROG_MAX`: the longest program (R5). -/
def Config.progMax : Nat := 3584
/-- `FB_W` (R5). -/
abbrev Config.fbWidth : Nat := 64
/-- `FB_H` (R5). -/
abbrev Config.fbHeight : Nat := 32
/-- `FONT_LEN`: the font stands at addresses 0 to 79 (R5, R31). -/
def Config.fontLen : Nat := 80

/-- The parameter `RND_MAX`, the largest value of the random byte of CXNN: the spec's value 254 (R6, D16).
DESIGN CHOICE, log entry 4: unsafe only for a claim that needs 255 to be impossible. -/
abbrev Config.rndMax : Nat := 254

/-- A value of the random byte, 0 to `RND_MAX` (R21). -/
abbrev RndByte := Fin (Config.rndMax + 1)

/-- The parameter `FONT` at its default value, the table of 20_memory.md R32 in the order of its addresses.
PRESUMED, log entry 3 (the spec marks the bytes as general knowledge): unsafe for a claim that reads a font byte. -/
def Config.font : List Byte :=
  [0xF0, 0x90, 0x90, 0x90, 0xF0, 0x20, 0x60, 0x20, 0x20, 0x70,
    0xF0, 0x10, 0xF0, 0x80, 0xF0, 0xF0, 0x10, 0xF0, 0x10, 0xF0] ++
  [0x90, 0x90, 0xF0, 0x10, 0x10, 0xF0, 0x80, 0xF0, 0x10, 0xF0,
    0xF0, 0x80, 0xF0, 0x90, 0xF0, 0xF0, 0x10, 0x20, 0x40, 0x40] ++
  [0xF0, 0x90, 0xF0, 0x90, 0xF0, 0xF0, 0x90, 0xF0, 0x10, 0xF0,
    0xF0, 0x90, 0xF0, 0x90, 0x90, 0xE0, 0x90, 0xE0, 0x90, 0xE0] ++
  [0xF0, 0x80, 0x80, 0x80, 0xF0, 0xE0, 0x90, 0x90, 0x90, 0xE0,
    0xF0, 0x80, 0xF0, 0x80, 0xF0, 0xF0, 0x80, 0xF0, 0x80, 0x80]

/-- The random byte of the cycle with this number, where the state holds no input for that cycle: any byte in
0 to `RND_MAX`, no relation between two cycles (R21). DESIGN CHOICE, log entry 4: safe. -/
opaque Config.rndDraw : Nat → RndByte

/-- The draw by which FX0A chooses among several pressed keys in the cycle with this number, where the state holds no
input for that cycle (R123, D13). DESIGN CHOICE, log entry 5: safe. -/
opaque Config.keyDraw : Nat → Nat

end Sys2Proof
end

