-- ==== Sys2Proof/Machine/State.lean ====
section
/-! DEFINITION. The state of the machine (10_state.md), the reasons a cycle stops (60_exceptions.md R131) and the state
after reset (R25). -/
namespace Sys2Proof.Machine

/-- The fatal machine faults, with the recorded value `info` of each (60_exceptions.md R131). A cycle that ends in one
commits nothing (R130). All are the spec's own faults: safe. -/
inductive Fault where
  /-- Code 1. Raised by the fetch of any cycle when `PC + 1` is above 4095; `info` is `PC`. Safe. -/
  | fetchRange (addr : Nat)
  /-- Code 2. Raised by DXYN and FX65 when a byte they would read lies above 4095; `info` is the lowest such address.
  Safe. -/
  | memReadRange (addr : Nat)
  /-- Code 3. Raised by FX33 and FX55 when a byte they would write lies above 4095; `info` is the lowest such address.
  Safe. -/
  | memWriteRange (addr : Nat)
  /-- Code 4. Raised by 2NNN when `SP` is 15; `info` is 15. Safe. -/
  | stackOverflow (sp : Nat)
  /-- Code 5. Raised by 00EE when `SP` is 0; `info` is 0. Safe. -/
  | stackUnderflow (sp : Nat)
  /-- Code 6. Raised by EX9E and EXA1 when `V[x]` is above 15; `info` is `V[x]`. Safe. -/
  | keyIndexRange (key : Nat)
  deriving DecidableEq, Repr

/-- The reasons an instruction has no meaning. -/
inductive Refusal where
  /-- Raised by an arm of `exec` whose instruction has no meaning yet; no arm raises it now. Safe. -/
  | notModelled (mnemonic : String)
  deriving DecidableEq, Repr

/-- The outcome of a cycle (10_state.md R22, 30_encoding.md R60). -/
inductive CycleStatus where
  /-- All five stages ran. -/
  | completed
  /-- The cycle was FX0A with no key pressed; the timer stage did not run. -/
  | waitingForKey
  /-- The cycle raised: nothing it did was kept (60_exceptions.md R130). -/
  | faulted (f : Fault)
  deriving DecidableEq, Repr

/-- The diagnostic of an unrecognized opcode: the opcode and the address it was fetched from (R138). -/
structure Diag where
  opcode : Word
  addr : Word
  deriving DecidableEq, Repr

/-- The outputs of one cycle: `outcome`, `beep`, `diag` (R22). -/
structure CycleOutput where
  status : CycleStatus
  beep : Bool
  diag : Option Diag
  deriving DecidableEq, Repr

/-- `KEYS`: for each of the 16 keys, whether it is pressed (R19). -/
abbrev Keys := Vector Bool 16

/-- What one cycle takes from outside: the key state and the random byte the host presents (R21), and the draw that
settles which of several pressed keys FX0A takes (R123). -/
structure CycleInput where
  keys : Keys
  rnd : RndByte
  keyPick : Nat
  deriving DecidableEq, Repr

/-- Memory: the bytes that differ from what they were at reset, by strictly rising address (R20, R30). -/
abbrev Memory := List Host.Cell

/-- The framebuffer: row `r` from the top, in which bit `c` is the cell of column `c` (R17: `FB[r*64 + c]`). -/
abbrev Framebuffer := Vector (BitVec Config.fbWidth) Config.fbHeight

/-- The state. The fields down to `fault` are the spec's; those after it are the model's own. -/
structure State where
  /-- `V[0]` to `V[15]` (R10). -/
  v : Vector Byte 16
  /-- The index register `I` (R13). -/
  i : Word
  /-- The program counter `PC` (R12). -/
  pc : Word
  /-- The stack pointer `SP`, 0 to 15 (R14). -/
  sp : Fin 16
  /-- `STACK[0]` to `STACK[15]` (R15). -/
  stack : Vector Word 16
  /-- The delay timer `DT` (R16). -/
  dt : Byte
  /-- The sound timer `ST` (R16). -/
  st : Byte
  /-- `MEM` (R20). -/
  mem : Memory
  /-- `FB` (R17). -/
  fb : Framebuffer
  /-- `REDRAW` (R18). -/
  redraw : Bool
  /-- `KEYS`: between cycles the value the host presented last, within a cycle this cycle's value (R19). -/
  keys : Keys
  /-- The sticky fault record `FAULT` (R23). -/
  fault : Option Fault
  /-- This cycle's random byte (R21). The model's own field, log entry 4. -/
  rnd : RndByte
  /-- This cycle's draw among several pressed keys (R123). The model's own field, log entry 5. -/
  keyPick : Nat
  /-- What the host will present in the cycles to come, the next cycle first (R19, R21, R146). The model's own field,
  log entry 6. -/
  pending : List CycleInput
  /-- The number of cycles begun since reset, the argument of the free values. The model's own field, log entry 4. -/
  cycle : Nat
  /-- The outputs of the cycle that ran last; no instruction reads them (R22). The model's own field, log entry 7. -/
  out : CycleOutput
  deriving DecidableEq, Repr

/-- The machine right after reset (R25): the font preloaded, everything else zeroed, `PC` = 512. Memory lists nothing:
an unlisted address reads as its reset byte. The last five fields are the model's own (log entry 8). -/
def State.reset : State where
  v := Vector.replicate 16 0
  i := 0
  pc := 512
  sp := 0
  stack := Vector.replicate 16 0
  dt := 0
  st := 0
  mem := []
  fb := Vector.replicate Config.fbHeight 0
  redraw := false
  keys := Vector.replicate 16 false
  fault := none
  rnd := 0
  keyPick := 0
  pending := []
  cycle := 0
  out := { status := .completed, beep := false, diag := none }

end Sys2Proof.Machine
end

