-- ==== Sys2Proof/Machine/Ops.lean ====
section
/-! DEFINITION. The named operations over the state: one home for each piece of it, memory with its canonical form, the
stack, the framebuffer, and the one operation by which an instruction faults. -/
namespace Sys2Proof.Machine

/-- What a stage of a cycle answers. -/
abbrev Result := Host.Outcome State Fault Refusal

/-! ## Faults

The machine has no trap entry and no return from one (60_exceptions.md R134, R135): no handler, vector, saved register
or mode. A fault is the outcome of the cycle, nothing the cycle did is kept (R130), and the host is told the kind and
the recorded value. -/

/-- `raise`: the cycle ends in the fault (00_scope.md R7, 60_exceptions.md R130). -/
def raise (f : Fault) : Result := .fault f

/-- The instruction goes on with the state an operation gave, or ends in the fault it raised. -/
def complete : Except Fault State → Result
  | .ok s => .next s
  | .error f => raise f

/-- The numeric code of a fault (R131). -/
def faultCode : Fault → Nat
  | .fetchRange _ => 1
  | .memReadRange _ => 2
  | .memWriteRange _ => 3
  | .stackOverflow _ => 4
  | .stackUnderflow _ => 5
  | .keyIndexRange _ => 6

/-- The recorded value `info` of a fault (R131). -/
def faultInfo : Fault → Nat
  | .fetchRange a => a
  | .memReadRange a => a
  | .memWriteRange a => a
  | .stackOverflow k => k
  | .stackUnderflow k => k
  | .keyIndexRange k => k

/-- The machine after a cycle that faulted, from its state before it: the fault record is set, no other piece of the
spec's state changes, and the outputs of the cycle are the fault, no beep and no diagnostic (R130 (c), (d),
10_state.md R22). -/
def recordFault (f : Fault) (s : State) : State :=
  { s with fault := some f, out := { status := .faulted f, beep := false, diag := none } }

/-! ## Registers (10_state.md R10 to R18) -/

/-- `V[r]`. -/
def State.getV (s : State) (r : Reg) : Byte := s.v[r]
/-- `V[r] <- b`. -/
def State.setV (s : State) (r : Reg) (b : Byte) : State := { s with v := s.v.set r b }
/-- `I <- w`. -/
def State.setI (s : State) (w : Word) : State := { s with i := w }
/-- `PC <- w`. -/
def State.setPc (s : State) (w : Word) : State := { s with pc := w }
/-- `SP <- k`. -/
def State.setSp (s : State) (k : Fin 16) : State := { s with sp := k }
/-- `STACK[k]`. -/
def State.getSlot (s : State) (k : Fin 16) : Word := s.stack[k]
/-- `STACK[k] <- w`. -/
def State.setSlot (s : State) (k : Fin 16) (w : Word) : State := { s with stack := s.stack.set k w }
/-- `DT <- b`. -/
def State.setDt (s : State) (b : Byte) : State := { s with dt := b }
/-- `ST <- b`. -/
def State.setSt (s : State) (b : Byte) : State := { s with st := b }
/-- The memory becomes `m`. -/
def State.setMem (s : State) (m : Memory) : State := { s with mem := m }
/-- The framebuffer becomes `f`. -/
def State.setFb (s : State) (f : Framebuffer) : State := { s with fb := f }
/-- `REDRAW <- b`. -/
def State.setRedraw (s : State) (b : Bool) : State := { s with redraw := b }
/-- The outputs of the cycle become `o` (R22). -/
def State.setOut (s : State) (o : CycleOutput) : State := { s with out := o }

/-! ## Memory (20_memory.md R30 to R39) -/

/-- What a byte holds after reset: the font at 0 to 79, 0 elsewhere (R25, R31). An address the memory does not list
reads as this. -/
def resetByte (a : Nat) : Byte := Config.font.getD a 0

/-- `MEM[a]`. -/
def readByte : Memory → Nat → Byte
  | [], a => resetByte a
  | (a', b) :: m, a => if a = a' then b else readByte m a

/-- A cell at the head of a memory, left out when it holds the reset byte of its address. -/
def consByte (a : Nat) (b : Byte) (m : Memory) : Memory := if b = resetByte a then m else (a, b) :: m

/-- `MEM[a] <- b`, keeping the canonical form. -/
def writeByte : Memory → Nat → Byte → Memory
  | [], a, b => consByte a b []
  | (a', b') :: m, a, b =>
    if a < a' then consByte a b ((a', b') :: m)
    else if a = a' then consByte a b m
    else (a', b') :: writeByte m a b

/-- Bytes stored at ascending addresses from `a` on (R37). -/
def writeBytes : Memory → Nat → List Byte → Memory
  | m, _, [] => m
  | m, a, b :: bs => writeBytes (writeByte m a b) (a + 1) bs

/-- `count` bytes at ascending addresses from `a` on (R37). -/
def readBytes (m : Memory) (a : Nat) : Nat → List Byte
  | 0 => []
  | count + 1 => readByte m a :: readBytes m (a + 1) count

/-- The canonical form, below an address that no cell may reach down to: addresses strictly rise and no cell holds the
reset byte of its address. -/
def wfFrom (low : Nat) : Memory → Bool
  | [] => true
  | (a, b) :: m => decide (low ≤ a) && decide (b ≠ resetByte a) && wfFrom (a + 1) m

/-- The canonical form of a memory: equal memories are equal lists. -/
def Memory.wf (m : Memory) : Bool := wfFrom 0 m

/-- `MEM[a]` in a state. -/
def State.byteAt (s : State) (a : Nat) : Byte := readByte s.mem a

/-- An access to `count` bytes from `first` on: the fault of the given kind at the lowest address above 4095, if there
is one. An access to no byte checks nothing. Addresses are naturals and do not wrap (R39). -/
def rangeFault (kind : Nat → Fault) (first count : Nat) : Option Fault :=
  if 1 ≤ count ∧ 4095 < first + count - 1 then some (kind (max first 4096)) else none

/-- `MemRead` of `count` bytes from `first` on, checked before any is read (R33, R37, R39). -/
def memRead (s : State) (first count : Nat) : Except Fault (List Byte) :=
  match rangeFault .memReadRange first count with
  | some f => .error f
  | none => .ok (readBytes s.mem first count)

/-- `MemWrite` of bytes from `first` on, checked before any is written (R34, R37, R39). Every valid address is
writable, the font and the program too. -/
def memWrite (s : State) (first : Nat) (bytes : List Byte) : Except Fault State :=
  match rangeFault .memWriteRange first bytes.length with
  | some f => .error f
  | none => .ok (s.setMem (writeBytes s.mem first bytes))

/-! ## The return-address stack (40_control_flow.md R78, R79) -/

/-- `Push(w)`: the store uses the new `SP`. -/
def push (s : State) (w : Word) : Except Fault State :=
  if s.sp = 15 then .error (.stackOverflow 15) else .ok ((s.setSp (s.sp + 1)).setSlot (s.sp + 1) w)

/-- `Pop()`: the read uses the old `SP`; the popped slot keeps its value. -/
def pop (s : State) : Except Fault (Word × State) :=
  if s.sp = 0 then .error (.stackUnderflow 0) else .ok (s.getSlot s.sp, s.setSp (s.sp - 1))

/-! ## Program counter -/

/-- A skip adds 2 to the already advanced `PC` (40_control_flow.md section 3). -/
def skipIf (c : Bool) (s : State) : State := if c then s.setPc (s.pc + 2) else s

/-- The address of the instruction that runs: `PC` was advanced by 2 before it (30_encoding.md R60). -/
def ownAddress (s : State) : Word := s.pc - 2

/-! ## Outputs of the cycle (10_state.md R22) -/

/-- The cycle ends here as a waiting cycle: `PC` goes back to the instruction, and the timer stage will not run
(44_keypad_timers.md R123). -/
def waitForKey (s : State) : State :=
  (s.setPc (ownAddress s)).setOut { s.out with status := .waitingForKey }

/-- The cycle emits the diagnostic of an unrecognized opcode (60_exceptions.md R138). -/
def diagnose (opcode : Word) (s : State) : State :=
  s.setOut { s.out with diag := some { opcode := opcode, addr := ownAddress s } }

/-! ## Framebuffer (10_state.md R17, 43_display.md R112) -/

/-- The cell of a row and a column, `FB[row*64 + col]`. -/
def cellOf (f : Framebuffer) (row : Fin 32) (col : Fin 64) : Bool := f[row].getLsbD col.val

/-- `FB[row*64 + col] <- FB[row*64 + col] XOR bit`. -/
def xorCell (f : Framebuffer) (row : Fin 32) (col : Fin 64) (bit : Bool) : Framebuffer :=
  f.set row (f[row] ^^^ ((BitVec.ofBool bit).setWidth 64 <<< col.val))

/-- Every cell 0. -/
def clearFb : Framebuffer := Vector.replicate 32 0

/-- The cell of a row and a column in a state. -/
def State.cell (s : State) (row : Fin 32) (col : Fin 64) : Bool := cellOf s.fb row col

/-! ## Keys (10_state.md R19) -/

/-- Whether key `k` is pressed in this cycle. -/
def State.keyDown (s : State) (k : Reg) : Bool := s.keys[k]

/-- The keys pressed in this cycle, in rising order. -/
def pressedKeys (s : State) : List Reg := (List.finRange 16).filter fun k => s.keyDown k

/-- One of the pressed keys, none if none is pressed. A draw chooses among several: every one of them is the choice of
some draw (44_keypad_timers.md R123, D13). -/
def chooseKey (pick : Nat) : List Reg → Option Reg
  | [] => none
  | [k] => some k
  | k :: l :: ks => (k :: l :: ks)[pick % (ks.length + 2)]?

end Sys2Proof.Machine
end

