-- ==== Sys2Proof/Machine/Cycle.lean ====
section
/-! DEFINITION. The stages of a cycle around the instruction (30_encoding.md R60): the fetch, the start of the cycle, the
timer stage, and what an instruction's answer becomes at the end. -/
namespace Sys2Proof.Machine

/-- Stage 1, `MemRead(PC, 2)`: the two bytes at `PC` and `PC + 1`, high byte first, both of which must exist
(20_memory.md R35). -/
def fetch (s : State) : Except Fault Word :=
  if s.pc.toNat + 1 < Config.memSize then
    .ok (wordOfBytes (s.byteAt s.pc.toNat) (s.byteAt (s.pc.toNat + 1)))
  else .error (.fetchRange s.pc.toNat)

/-- The inputs of the cycle (10_state.md R19, R21): the next of those the host will present. Where it will present no
more, the keys stay as it left them and the random byte and the draw of FX0A are free values. -/
def takeInput (s : State) : State :=
  match s.pending with
  | [] => { s with rnd := Config.rndDraw s.cycle, keyPick := Config.keyDraw s.cycle, cycle := s.cycle + 1 }
  | h :: later =>
    { s with keys := h.keys, rnd := h.rnd, keyPick := h.keyPick, pending := later, cycle := s.cycle + 1 }

/-- The inputs are taken, then stages 2 and 3: `PC <- PC + 2`, `REDRAW <- 0`; the outputs of the cycle start empty. -/
def beginCycle (s : State) : State :=
  (((takeInput s).setPc (s.pc + 2)).setRedraw false).setOut
    { status := .completed, beep := false, diag := none }

/-- A timer above 0 loses one; a timer at 0 stays there (60_exceptions.md R143). -/
def countDown (b : Byte) : Byte := if b = 0 then 0 else b - 1

/-- Stage 5: the beep is tested before the decrement (60_exceptions.md R143, R144). -/
def timerStage (s : State) : State :=
  ((s.setOut { s.out with beep := s.st == 1 }).setDt (countDown s.dt)).setSt (countDown s.st)

/-- The end of the cycle: the timer stage, unless the cycle is a waiting or a faulting one (R60, 60_exceptions.md R143,
44_keypad_timers.md R123). No instruction gives a state with a faulting outcome: an instruction that faults gives none. -/
def endCycle (s : State) : State :=
  match s.out.status with
  | .completed => timerStage s
  | .waitingForKey => s
  | .faulted _ => s

/-- What the answer of stage 4 becomes. -/
def finish : Result → Result
  | .next s => .next (endCycle s)
  | .fault f => .fault f
  | .refused r => .refused r

end Sys2Proof.Machine
end

