-- ==== Sys2Proof/Machine/Flags.lean ====
section
/-! DEFINITION. The values the six flag-writing operations leave in `VF` (10_state.md R11, 41_alu.md R92). -/
namespace Sys2Proof.Machine

/-- A flag as a byte, 1 or 0. -/
def flag (b : Bool) : Byte := if b then 1 else 0

/-- 8XY4: the carry, 1 when the true sum is above 255 (R86). -/
def carryFlag (a b : Byte) : Byte := flag (decide (255 < a.toNat + b.toNat))

/-- 8XY5 and 8XY7: 1 when the minuend is strictly greater than the subtrahend (R87, R89). -/
def greaterFlag (minuend subtrahend : Byte) : Byte := flag (decide (subtrahend.toNat < minuend.toNat))

/-- 8XY6: bit 0, which the right shift drops (R88). -/
def lowBitFlag (a : Byte) : Byte := flag (a.getLsbD 0)

/-- 8XYE: bit 7, which the left shift drops (R90). -/
def highBitFlag (a : Byte) : Byte := flag (a.getLsbD 7)

/-- DXYN, one pixel: the flag becomes 1 when the cell holds 1 after its XOR, and stays otherwise (R111, D9). -/
def drawFlag (cell : Bool) (vf : Byte) : Byte := if cell then 1 else vf

end Sys2Proof.Machine
end

