-- ==== Sys2Proof/Machine/Alu.lean ====
section
/-! DEFINITION. The register load, arithmetic, logic, shift and random instructions (41_alu.md). Statements run in the
order the rules write them, and a later one reads what an earlier one wrote (00_scope.md R8, R93). -/
namespace Sys2Proof.Machine

/-- 6XNN: `V[x] <- nn` (R80). -/
def execLdImm (x : Reg) (nn : Byte) (s : State) : Result := .next (s.setV x nn)

/-- 7XNN: `V[x] <- (V[x] + nn) mod 256`, no flag (R81). -/
def execAddImm (x : Reg) (nn : Byte) (s : State) : Result := .next (s.setV x (s.getV x + nn))

/-- 8XY0: `V[x] <- V[y]` (R82). -/
def execLdReg (x y : Reg) (s : State) : Result := .next (s.setV x (s.getV y))

/-- 8XY1: `V[x] <- V[x] OR V[y]` (R83). -/
def execOrReg (x y : Reg) (s : State) : Result := .next (s.setV x (s.getV x ||| s.getV y))

/-- 8XY2: `V[x] <- V[x] AND V[y]` (R84). -/
def execAndReg (x y : Reg) (s : State) : Result := .next (s.setV x (s.getV x &&& s.getV y))

/-- 8XY3: `V[x] <- V[x] XOR V[y]` (R85). -/
def execXorReg (x y : Reg) (s : State) : Result := .next (s.setV x (s.getV x ^^^ s.getV y))

/-- 8XY4: `V[x] <- sum mod 256`, then `V[15]` gets the carry (R86). -/
def execAddReg (x y : Reg) (s : State) : Result :=
  .next ((s.setV x (s.getV x + s.getV y)).setV regF (carryFlag (s.getV x) (s.getV y)))

/-- `V[15] <- f`, and then `V[x] <- g` of the registers as they now are: the order of 8XY5, 8XY6, 8XY7, 8XYE (R93). -/
def flagThen (f : Byte) (x : Reg) (g : State → Byte) (s : State) : State :=
  let t := s.setV regF f
  t.setV x (g t)

/-- 8XY5: the flag, then `V[x] <- (V[x] - V[y]) mod 256` (R87). -/
def execSubReg (x y : Reg) (s : State) : Result :=
  .next (flagThen (greaterFlag (s.getV x) (s.getV y)) x (fun t => t.getV x - t.getV y) s)

/-- 8XY6: the flag, then `V[x] <- V[x] >> 1`; `V[y]` is not read (R88). -/
def execShr (x _y : Reg) (s : State) : Result :=
  .next (flagThen (lowBitFlag (s.getV x)) x (fun t => t.getV x >>> 1) s)

/-- 8XY7: the flag, then `V[x] <- (V[y] - V[x]) mod 256` (R89). -/
def execSubnReg (x y : Reg) (s : State) : Result :=
  .next (flagThen (greaterFlag (s.getV y) (s.getV x)) x (fun t => t.getV y - t.getV x) s)

/-- 8XYE: the flag, then `V[x] <- (V[x] << 1) mod 256`; `V[y]` is not read (R90). -/
def execShl (x _y : Reg) (s : State) : Result :=
  .next (flagThen (highBitFlag (s.getV x)) x (fun t => t.getV x <<< 1) s)

/-- CXNN: `V[x] <- rnd AND nn`, with this cycle's random byte (R91). -/
def execRnd (x : Reg) (nn : Byte) (s : State) : Result :=
  .next (s.setV x (BitVec.ofNat 8 s.rnd.val &&& nn))

end Sys2Proof.Machine
end

