-- ==== Sys2Proof/Machine/Operands.lean ====
section
/-! DEFINITION. The operand forms: immediates, the address `I + k`, register lists, decimal digits, key numbers, sprite
pixels. -/
namespace Sys2Proof.Machine

/-- A 12-bit immediate as an address, zero-extended (30_encoding.md R52). -/
def addrImm (nnn : BitVec 12) : Word := nnn.setWidth 16

/-- A register's byte where a 16-bit value is wanted, zero-extended. -/
def zextByte (b : Byte) : Word := b.setWidth 16

/-- The one addressing mode, `I + k`, in naturals: it does not wrap (42_index_memory.md R106, 20_memory.md R39). -/
def effAddr (s : State) (k : Nat) : Nat := s.i.toNat + k

/-- `5 * V[x]` in 16 bits, the address of a glyph for 0 to 15 (42_index_memory.md R102, D15). -/
def fontAddr (b : Byte) : Word := 5 * zextByte b

/-- The hundreds, tens and ones digits of a byte (42_index_memory.md R103). -/
def bcdDigits (b : Byte) : List Byte :=
  [BitVec.ofNat 8 (b.toNat / 100), BitVec.ofNat 8 (b.toNat / 10 % 10), BitVec.ofNat 8 (b.toNat % 10)]

/-- `V[0]` to `V[x-1]`, the registers FX55 stores; `V[x]` is not among them (42_index_memory.md R104). -/
def regsBelow (s : State) (x : Reg) : List Byte := s.v.toList.take x.val

/-- Bytes into ascending registers from register `k` on (42_index_memory.md R105). -/
def setRegsFrom (s : State) (k : Nat) : List Byte → State
  | [] => s
  | b :: bs => setRegsFrom (if h : k < 16 then s.setV ⟨k, h⟩ b else s) (k + 1) bs

/-- The key a register names, only the values 0 to 15 (44_keypad_timers.md R126). -/
def keyIndex (b : Byte) : Except Fault Reg :=
  if h : b.toNat < 16 then .ok ⟨b.toNat, h⟩ else .error (.keyIndexRange b.toNat)

/-- The row of a sprite pixel, `(V[y] + r) mod 32` (43_display.md R112). -/
def pixelRow (vy : Byte) (r : Nat) : Fin 32 := Fin.ofNat 32 (vy.toNat + r)

/-- The column of a sprite pixel, `(V[x] + c) mod 64` (43_display.md R112). -/
def pixelCol (vx : Byte) (c : Nat) : Fin 64 := Fin.ofNat 64 (vx.toNat + c)

/-- The bit of a sprite byte that is the pixel at column offset `c`: bit 7 is the leftmost (43_display.md R113, D8).
PRESUMED, log entry 9 (the spec marks the bit order as general knowledge): unsafe where the byte is no mirror image of
itself. -/
def spriteBit (b : Byte) (c : Nat) : Bool := b.getLsbD (7 - c)

end Sys2Proof.Machine
end

