-- ==== Sys2Proof/Machine/Control.lean ====
section
/-! DEFINITION. The control-transfer instructions and the unrecognized opcodes (40_control_flow.md, 30_encoding.md R56).
A meaning is stage 4 of a cycle: `PC` is already the address of the following instruction (R60). -/
namespace Sys2Proof.Machine

/-- 00EE: `PC <- Pop()` (R70). -/
def execRet (s : State) : Result :=
  match pop s with
  | .error f => raise f
  | .ok (target, t) => .next (t.setPc target)

/-- 1NNN: `PC <- zext_16(nnn)` (R71). -/
def execJp (nnn : BitVec 12) (s : State) : Result := .next (s.setPc (addrImm nnn))

/-- 2NNN: `Push(PC); PC <- zext_16(nnn)` (R72). -/
def execCall (nnn : BitVec 12) (s : State) : Result :=
  match push s s.pc with
  | .error f => raise f
  | .ok t => .next (t.setPc (addrImm nnn))

/-- 3XNN: skip if `V[x] = nn` (R73). -/
def execSeImm (x : Reg) (nn : Byte) (s : State) : Result := .next (skipIf (s.getV x == nn) s)

/-- 4XNN: skip if `V[x] != nn` (R74). -/
def execSneImm (x : Reg) (nn : Byte) (s : State) : Result := .next (skipIf (s.getV x != nn) s)

/-- 5XY0: skip if `V[x] = V[y]` (R75). -/
def execSeReg (x y : Reg) (s : State) : Result := .next (skipIf (s.getV x == s.getV y) s)

/-- 9XY0: skip if `V[x] != V[y]` (R76). -/
def execSneReg (x y : Reg) (s : State) : Result := .next (skipIf (s.getV x != s.getV y) s)

/-- BNNN: `PC <- zext_16(nnn) + zext_16(V[0])`, with register 0 whatever the digits of `nnn` (R77). -/
def execJpV0 (nnn : BitVec 12) (s : State) : Result := .next (s.setPc (addrImm nnn + zextByte (s.getV 0)))

/-- An unrecognized opcode: no state change in this stage, and the diagnostic (R56, R138). -/
def execUnrecognized (opcode : Word) (s : State) : Result := .next (diagnose opcode s)

end Sys2Proof.Machine
end

