-- ==== Sys2Proof/Machine/Display.lean ====
section
/-! DEFINITION. The display instructions (43_display.md). -/
namespace Sys2Proof.Machine

/-- 00E0: every cell 0, and `REDRAW <- 1` (R110). -/
def execCls (s : State) : Result := .next ((s.setFb clearFb).setRedraw true)

/-- A framebuffer being drawn on, with the value `VF` has so far. -/
abbrev Drawing := Framebuffer × Byte

/-- One pixel: the cell is XORed with the sprite bit, and the flag sees the cell as it is then (R111). -/
def drawCell (d : Drawing) (row : Fin 32) (col : Fin 64) (bit : Bool) : Drawing :=
  let f := xorCell d.1 row col bit
  (f, drawFlag (cellOf f row col) d.2)

/-- One sprite row: its eight pixels from the leftmost on (R111, R113). -/
def drawRow (d : Drawing) (row : Fin 32) (vx b : Byte) : Drawing :=
  (List.range 8).foldl (fun d c => drawCell d row (pixelCol vx c) (spriteBit b c)) d

/-- The sprite rows from row `r` on (R111). -/
def drawRows (vx vy : Byte) (r : Nat) (d : Drawing) : List Byte → Drawing
  | [] => d
  | b :: bs => drawRows vx vy (r + 1) (drawRow d (pixelRow vy r) vx b) bs

/-- DXYN: the position and the sprite are read and checked before anything is written, `VF` starts at 0, and `REDRAW`
is set in any case (R111, D7, D9, D10). -/
def execDrw (x y : Reg) (n : Fin 16) (s : State) : Result :=
  match memRead s (effAddr s 0) n.val with
  | .error f => raise f
  | .ok sprite =>
    let d := drawRows (s.getV x) (s.getV y) 0 (s.fb, 0) sprite
    .next (((s.setFb d.1).setV regF d.2).setRedraw true)

end Sys2Proof.Machine
end

