-- ==== Sys2Proof/Machine/Index.lean ====
section
/-! DEFINITION. The index-register and memory instructions (42_index_memory.md). None of them that accesses memory
changes `I` (R106). -/
namespace Sys2Proof.Machine

/-- ANNN: `I <- zext_16(nnn)` (R100). -/
def execLdI (nnn : BitVec 12) (s : State) : Result := .next (s.setI (addrImm nnn))

/-- FX1E: `I <- (I + zext_16(V[x])) mod 65536`, no flag (R101). -/
def execAddI (x : Reg) (s : State) : Result := .next (s.setI (s.i + zextByte (s.getV x)))

/-- FX29: `I <- 5 * zext_16(V[x])`, for every value of `V[x]` (R102, D15). -/
def execLdFont (x : Reg) (s : State) : Result := .next (s.setI (fontAddr (s.getV x)))

/-- FX33: the three decimal digits of `V[x]` at `I`, `I+1`, `I+2` (R103). -/
def execLdBcd (x : Reg) (s : State) : Result := complete (memWrite s (effAddr s 0) (bcdDigits (s.getV x)))

/-- FX55: `V[0]` to `V[x-1]` into memory at `I` (R104). -/
def execStoreRegs (x : Reg) (s : State) : Result := complete (memWrite s (effAddr s 0) (regsBelow s x))

/-- FX65: `x` bytes of memory at `I` into `V[0]` to `V[x-1]` (R105). -/
def execLoadRegs (x : Reg) (s : State) : Result :=
  match memRead s (effAddr s 0) x.val with
  | .error f => raise f
  | .ok bytes => .next (setRegsFrom s 0 bytes)

end Sys2Proof.Machine
end

