-- ==== Sys2Proof/Machine/Keypad.lean ====
section
/-! DEFINITION. The keypad and timer instructions (44_keypad_timers.md). -/
namespace Sys2Proof.Machine

/-- EX9E: skip if the key `V[x]` is pressed in this cycle; a value above 15 names no key (R120, R126). -/
def execSkp (x : Reg) (s : State) : Result :=
  match keyIndex (s.getV x) with
  | .error f => raise f
  | .ok k => .next (skipIf (s.keyDown k) s)

/-- EXA1: skip if the key `V[x]` is not pressed in this cycle (R121, R126). -/
def execSknp (x : Reg) (s : State) : Result :=
  match keyIndex (s.getV x) with
  | .error f => raise f
  | .ok k => .next (skipIf (!s.keyDown k) s)

/-- FX07: `V[x] <- DT`, before this cycle's decrement (R122). -/
def execLdVxDt (x : Reg) (s : State) : Result := .next (s.setV x s.dt)

/-- FX0A: with no key pressed the cycle waits; otherwise `V[x]` gets the number of a pressed key (R123, D11 to D13). -/
def execLdVxKey (x : Reg) (s : State) : Result :=
  match chooseKey s.keyPick (pressedKeys s) with
  | none => .next (waitForKey s)
  | some k => .next (s.setV x (BitVec.ofNat 8 k.val))

/-- FX15: `DT <- V[x]` (R124). -/
def execLdDtVx (x : Reg) (s : State) : Result := .next (s.setDt (s.getV x))

/-- FX18: `ST <- V[x]` (R125). -/
def execLdStVx (x : Reg) (s : State) : Result := .next (s.setSt (s.getV x))

end Sys2Proof.Machine
end

