-- ==== Sys2Proof/Machine/Step.lean ====
section
/-! DEFINITION. One cycle of the machine (30_encoding.md R60), and the placing of an instruction where it is fetched. -/
namespace Sys2Proof.Machine

/-- One cycle. A machine whose fault record is set accepts none: it answers with the recorded fault (10_state.md R23,
60_exceptions.md R130 (e)). -/
def step (s : State) : Host.Outcome State Fault Refusal :=
  match s.fault with
  | some f => .fault f
  | none =>
    match fetch s with
    | .error f => .fault f
    | .ok opcode => finish (exec (decodeWord opcode) (beginCycle s))

/-- The state with a table row's word stored at `PC`, high byte first, where the next cycle fetches it. It stands for the
part of a program load that lies there (20_memory.md R46); where no instruction fits at `PC` nothing changes. -/
def State.withFetchWord (s : State) (nbits w : Nat) : State :=
  if s.pc.toNat + 1 < Config.memSize then
    s.setMem (writeBytes s.mem s.pc.toNat (bytesOfWord (tableWord nbits w)))
  else s

end Sys2Proof.Machine
end

