-- ==== Sys2Proof/Machine/HostOps.lean ====
section
/-! DEFINITION. The host's operations, the whole of what the outside can do to the machine (60_exceptions.md R146):
`Reset`, `LoadProgram`, `Cycle(keys, rnd)`, `Observe`. -/
namespace Sys2Proof.Machine

/-- `Reset()`: nothing survives it, the program and a fault neither (70_reset_and_hazards.md R160). -/
def resetOp (_ : State) : State := State.reset

/-- What `LoadProgram` answers. -/
inductive LoadResult where
  /-- `Ok`, with the state after the load. -/
  | ok (s : State)
  /-- `LoadTooLong`: the state is unchanged. -/
  | tooLong
  /-- A faulted machine accepts no load: the state is unchanged. -/
  | notAccepted
  deriving DecidableEq, Repr

/-- `LoadProgram(bytes)` (20_memory.md R46): rejected before any write where the program is too long. -/
def loadProgram (bytes : List Byte) (s : State) : LoadResult :=
  if s.fault.isSome then .notAccepted
  else if Config.progMax < bytes.length then .tooLong
  else .ok (s.setMem (writeBytes s.mem Config.progBase bytes))

/-- What a cycle call answers; the outputs of the cycle (`outcome`, `beep`, `diag`) stand in the `out` of the state it
answers with, also where the cycle faulted (R146). -/
inductive CallResult where
  /-- `Completed` or `WaitingForKey`, with the state after the cycle. -/
  | returned (s : State)
  /-- `Fault`, with the state after the cycle: the fault record is set, the outputs are those of a faulting cycle, and nothing
  else changed. -/
  | faulted (f : Fault) (s : State)
  /-- A faulted machine accepts no cycle: the state is unchanged. -/
  | notAccepted
  /-- The instruction has no meaning; no instruction is refused now. -/
  | refused (r : Refusal)
  deriving DecidableEq, Repr

/-- The host presents the inputs of the next cycle (10_state.md R19, R21). -/
def present (input : CycleInput) (s : State) : State := { s with pending := input :: s.pending }

/-- `Cycle(keys, rnd)`, with the draw of FX0A: the inputs are presented and one cycle runs (R60, R130). -/
def cycleCall (input : CycleInput) (s : State) : CallResult :=
  if s.fault.isSome then .notAccepted
  else
    match step (present input s) with
    | .next t => .returned t
    | .fault f => .faulted f (recordFault f s)
    | .refused r => .refused r

/-- What the host observes of a state: the 2048 cells in row-major order and `REDRAW` (R145, R146). -/
structure View where
  cells : List Bool
  redraw : Bool
  deriving DecidableEq, Repr

/-- `Observe()`; it changes nothing. -/
def observe (s : State) : View where
  cells := s.fb.toList.flatMap fun row => (List.range 64).map fun c => row.getLsbD c
  redraw := s.redraw

/-- `Launch(P)`, the state from which claims about a program start (70_reset_and_hazards.md R162), where `P` is at most
3584 bytes long, with the inputs that the host will present: the first for the first cycle, and so on. R162 quantifies
over every one of them, so a claim about `k` cycles is made for all lists of at least `k` inputs. -/
def launch (program : List Byte) (inputs : List CycleInput) : State :=
  { State.reset with mem := writeBytes State.reset.mem Config.progBase program, pending := inputs }

end Sys2Proof.Machine
end

