-- ==== Sys2Proof/Safety.lean ====
section
/-! DEFINITION. The terms in which claims are made: what a run that goes well is, the invariant of every run, what an
instruction leaves unchanged, and the end of a run. -/
namespace Sys2Proof.Machine

/-- The outcome is a next state. -/
def isNext : Result → Bool
  | .next _ => true
  | _ => false

/-- `k` cycles from `s` end in no fault; a faulted state is never a good end (60_exceptions.md R130 (f)). -/
def RunsFor (k : Nat) (s : State) : Prop := ∃ t, Host.Core.run core k s = .next t

/-- The program never faults, whatever keys, random bytes and draws the host presents in however many cycles: one input
for each cycle that runs (70_reset_and_hazards.md R162). -/
def NeverFaults (program : List Byte) : Prop :=
  ∀ inputs : List CycleInput, RunsFor inputs.length (launch program inputs)

/-- The invariant of every run: memory is in its canonical form and lists only addresses that exist (R30); `STACK[0]` is
never populated (R15); no slot holds more than 4096 and `PC` is at most 4350 (R12). -/
def State.Inv (s : State) : Prop :=
  s.mem.wf = true ∧ (∀ c ∈ s.mem, c.1 < Config.memSize) ∧ s.getSlot 0 = 0 ∧
    (∀ k, (s.getSlot k).toNat ≤ 4096) ∧ s.pc.toNat ≤ 4350

/-- The pieces of state beside the general registers. -/
inductive Part where
  | i | pc | sp | stack | dt | st | mem | fb | redraw | keys | fault | rnd | keyPick | pending | cycle | out
  deriving DecidableEq, Repr

/-- The piece is the same in both states; memory is compared byte by byte, the framebuffer cell by cell and the stack
slot by slot. -/
def Part.same (s t : State) : Part → Prop
  | .i => t.i = s.i
  | .pc => t.pc = s.pc
  | .sp => t.sp = s.sp
  | .stack => ∀ k, t.getSlot k = s.getSlot k
  | .dt => t.dt = s.dt
  | .st => t.st = s.st
  | .mem => ∀ a, t.byteAt a = s.byteAt a
  | .fb => ∀ row col, t.cell row col = s.cell row col
  | .redraw => t.redraw = s.redraw
  | .keys => ∀ k, t.keyDown k = s.keyDown k
  | .fault => t.fault = s.fault
  | .rnd => t.rnd = s.rnd
  | .keyPick => t.keyPick = s.keyPick
  | .pending => t.pending = s.pending
  | .cycle => t.cycle = s.cycle
  | .out => t.out = s.out

/-- From `s` to `t` no general register but those of `regs` and no piece of state but those of `parts` changed. -/
def Frame (regs : List Reg) (parts : List Part) (s t : State) : Prop :=
  (∀ r, r ∉ regs → t.getV r = s.getV r) ∧ ∀ p, p ∉ parts → p.same s t

/-- Every opcode that agrees with `pattern` under `mask` decodes to the instruction `mk` makes of it (R54). -/
def Selects (mask pattern : Word) (mk : Word → Instr) : Prop :=
  ∀ w : Word, w &&& mask = pattern → decodeWord w = mk w

/-- The two bytes at an address below 4095 as the opcode they form (R35). -/
def opcodeAt (s : State) (a : Nat) : Word := wordOfBytes (s.byteAt a) (s.byteAt (a + 1))

/-- The next cycle of the machine runs this instruction: no fault is recorded, both bytes of the fetch exist, and the
opcode they form decodes to it (30_encoding.md R60). -/
def Fetches (s : State) (i : Instr) : Prop :=
  s.fault = none ∧ s.pc.toNat + 1 < Config.memSize ∧ decodeWord (opcodeAt s s.pc.toNat) = i

/-- The key state of the next cycle: what the host will present, else what it presented last (10_state.md R19). -/
def presentedKeys (s : State) : Keys :=
  match s.pending with
  | [] => s.keys
  | h :: _ => h.keys

/-- No key is pressed. -/
abbrev noKey (k : Keys) : Prop := ∀ r : Reg, k[r] = false

/-- The pieces of state in which the model keeps a cycle's inputs and outputs; every cycle may change them. -/
def cycleParts : List Part := [.keys, .rnd, .keyPick, .pending, .cycle, .out]

/-- Parked: the instruction at `PC` is 1NNN with `nnn` = `PC` (70_reset_and_hazards.md R170 (a)). -/
def Parked (s : State) : Prop := ∃ nnn : BitVec 12, nnn.toNat = s.pc.toNat ∧ Fetches s (.jp nnn)

/-! ## The spec's tables over all instructions -/

/-- The fault of an instruction, by the conditions of 60_exceptions.md R131 on the state at its start. -/
def expectedFault : Instr → State → Option Fault
  | .drw _ _ n, s =>
    if 1 ≤ n.val ∧ 4095 < s.i.toNat + n.val - 1 then some (.memReadRange (max s.i.toNat 4096)) else none
  | .loadRegs x, s =>
    if 1 ≤ x.val ∧ 4095 < s.i.toNat + x.val - 1 then some (.memReadRange (max s.i.toNat 4096)) else none
  | .ldBcd _, s => if 4095 < s.i.toNat + 2 then some (.memWriteRange (max s.i.toNat 4096)) else none
  | .storeRegs x, s =>
    if 1 ≤ x.val ∧ 4095 < s.i.toNat + x.val - 1 then some (.memWriteRange (max s.i.toNat 4096)) else none
  | .call _, s => if s.sp.val = 15 then some (.stackOverflow 15) else none
  | .ret, s => if s.sp.val = 0 then some (.stackUnderflow 0) else none
  | .skp x, s => if 15 < (s.getV x).toNat then some (.keyIndexRange (s.getV x).toNat) else none
  | .sknp x, s => if 15 < (s.getV x).toNat then some (.keyIndexRange (s.getV x).toNat) else none
  | _, _ => none

/-- The program counter at the end of a cycle that ran this instruction (30_encoding.md R61), `s` being the state at the
start of the cycle. -/
def expectedPc (s : State) : Instr → Nat
  | .jp nnn => nnn.toNat
  | .call nnn => nnn.toNat
  | .jpV0 nnn => nnn.toNat + (s.getV 0).toNat
  | .ret => (s.getSlot s.sp).toNat
  | .seImm x nn => if s.getV x = nn then s.pc.toNat + 4 else s.pc.toNat + 2
  | .sneImm x nn => if s.getV x ≠ nn then s.pc.toNat + 4 else s.pc.toNat + 2
  | .seReg x y => if s.getV x = s.getV y then s.pc.toNat + 4 else s.pc.toNat + 2
  | .sneReg x y => if s.getV x ≠ s.getV y then s.pc.toNat + 4 else s.pc.toNat + 2
  | .skp x => if (presentedKeys s).toList[(s.getV x).toNat]? = some true then s.pc.toNat + 4 else s.pc.toNat + 2
  | .sknp x => if (presentedKeys s).toList[(s.getV x).toNat]? = some false then s.pc.toNat + 4 else s.pc.toNat + 2
  | .ldVxKey _ => if noKey (presentedKeys s) then s.pc.toNat else s.pc.toNat + 2
  | _ => s.pc.toNat + 2

/-- The pieces of state beside the general registers that an instruction may write (10_state.md section 1); `out` holds
the waiting status and the diagnostic. -/
def writes : Instr → List Part
  | .cls => [.fb, .redraw]
  | .drw _ _ _ => [.fb, .redraw]
  | .ret => [.pc, .sp]
  | .call _ => [.pc, .sp, .stack]
  | .jp _ => [.pc]
  | .jpV0 _ => [.pc]
  | .seImm _ _ => [.pc]
  | .sneImm _ _ => [.pc]
  | .seReg _ _ => [.pc]
  | .sneReg _ _ => [.pc]
  | .skp _ => [.pc]
  | .sknp _ => [.pc]
  | .ldVxKey _ => [.pc, .out]
  | .ldI _ => [.i]
  | .addI _ => [.i]
  | .ldFont _ => [.i]
  | .ldDtVx _ => [.dt]
  | .ldStVx _ => [.st]
  | .ldBcd _ => [.mem]
  | .storeRegs _ => [.mem]
  | .unrecognized _ => [.out]
  | _ => []

/-- The general registers an instruction may write: its destination, `VF` for the six flag writers, and `V0` to `V(x-1)`
for FX65 (10_state.md R10, R11). -/
def writesReg : Instr → Reg → Prop
  | .ldImm x _, r => r = x
  | .addImm x _, r => r = x
  | .ldReg x _, r => r = x
  | .orReg x _, r => r = x
  | .andReg x _, r => r = x
  | .xorReg x _, r => r = x
  | .rnd x _, r => r = x
  | .ldVxDt x, r => r = x
  | .ldVxKey x, r => r = x
  | .addReg x _, r => r = x ∨ r = 15
  | .subReg x _, r => r = x ∨ r = 15
  | .shr x _, r => r = x ∨ r = 15
  | .subnReg x _, r => r = x ∨ r = 15
  | .shl x _, r => r = x ∨ r = 15
  | .drw _ _ _, r => r = 15
  | .loadRegs x, r => r.val < x.val
  | _, _ => False

/-- A register as a statement after the flag was written reads it: the flag where it is `VF` (41_alu.md R93). -/
def reread (s : State) (f : Nat) (r : Reg) : Nat := if r = 15 then f else (s.getV r).toNat

/-- The value of `DT` that the timer stage sees (60_exceptions.md R143). -/
def dtSeen (s : State) : Instr → Nat
  | .ldDtVx x => (s.getV x).toNat
  | _ => s.dt.toNat

/-- The value of `ST` that the timer stage sees (60_exceptions.md R143, R144). -/
def stSeen (s : State) : Instr → Nat
  | .ldStVx x => (s.getV x).toNat
  | _ => s.st.toNat

/-- The unrecognized opcodes as 30_encoding.md R57 lists them, (a) to (f). -/
def unrecognizedForm (n : Nat) : Prop :=
  (n / 4096 = 0x0 ∧ n ≠ 0x00E0 ∧ n ≠ 0x00EE) ∨
  (n / 4096 = 0x5 ∧ n % 16 ≠ 0) ∨
  (n / 4096 = 0x8 ∧ (n % 16 = 0x8 ∨ n % 16 = 0x9 ∨ n % 16 = 0xA ∨ n % 16 = 0xB ∨ n % 16 = 0xC ∨ n % 16 = 0xD ∨
    n % 16 = 0xF)) ∨
  (n / 4096 = 0x9 ∧ n % 16 ≠ 0) ∨
  (n / 4096 = 0xE ∧ n % 256 ≠ 0x9E ∧ n % 256 ≠ 0xA1) ∨
  (n / 4096 = 0xF ∧ n % 256 ≠ 0x07 ∧ n % 256 ≠ 0x0A ∧ n % 256 ≠ 0x15 ∧ n % 256 ≠ 0x18 ∧ n % 256 ≠ 0x1E ∧
    n % 256 ≠ 0x29 ∧ n % 256 ≠ 0x33 ∧ n % 256 ≠ 0x55 ∧ n % 256 ≠ 0x65)

end Sys2Proof.Machine
end

