-- ==== Sys2Proof/WellFormed.lean ====
section
/-! DEFINITION. Which terms of `Instr` are instructions. Register numbers, counts and immediates are in range by their
types (30_encoding.md R51, R52); the one check left is that `unrecognized` carries an opcode no pattern matches (R56). -/
namespace Sys2Proof

/-- The instruction is one the decoder can give. -/
def Instr.wf : Instr → Bool
  | .unrecognized opcode => !recognized opcode
  | _ => true

end Sys2Proof
end

