-- ==== Sys2Proof/Certificates/Slice0/Obligations.lean ====
section
/-! DEFINITION. The statements for the provers, from the spec's numbered rules. -/

open Sys2Proof Sys2Proof.Machine

/-- R70, R79. 00EE pops PC from the stack and faults on an empty one. -/
def Obligations.RetPopsPc : Prop :=
  Selects 0xFFFF#16 0x00EE#16 (fun _ => .ret) ∧
  (∀ s : State, s.sp.val ≠ 0 → ∃ t, exec .ret s = .next t ∧ t.pc = s.getSlot s.sp ∧
    t.sp.val + 1 = s.sp.val ∧ Frame [] [.pc, .sp] s t) ∧
  ∀ s : State, s.sp.val = 0 → exec .ret s = .fault (.stackUnderflow 0)

/-- R71. 1NNN sets PC to nnn. -/
def Obligations.JumpSetsPc : Prop :=
  Selects 0xF000#16 0x1000#16 (fun w => .jp (fieldNnn w)) ∧
  ∀ (nnn : BitVec 12) (s : State), ∃ t, exec (.jp nnn) s = .next t ∧ t.pc.toNat = nnn.toNat ∧ Frame [] [.pc] s t

/-- R72, R78. 2NNN pushes PC and jumps, and faults on a full stack. -/
def Obligations.CallPushesPc : Prop :=
  Selects 0xF000#16 0x2000#16 (fun w => .call (fieldNnn w)) ∧
  (∀ (nnn : BitVec 12) (s : State), s.sp.val ≠ 15 → ∃ t, exec (.call nnn) s = .next t ∧
    t.sp.val = s.sp.val + 1 ∧ t.getSlot t.sp = s.pc ∧ (∀ k, k ≠ t.sp → t.getSlot k = s.getSlot k) ∧
    t.pc.toNat = nnn.toNat ∧ Frame [] [.pc, .sp, .stack] s t) ∧
  ∀ (nnn : BitVec 12) (s : State), s.sp.val = 15 → exec (.call nnn) s = .fault (.stackOverflow 15)

/-- R73. 3XNN skips when V[x] equals nn. -/
def Obligations.SkipIfEqualImmediate : Prop :=
  Selects 0xF000#16 0x3000#16 (fun w => .seImm (fieldX w) (fieldNn w)) ∧
  ∀ (x : Reg) (nn : Byte) (s : State), ∃ t, exec (.seImm x nn) s = .next t ∧
    t.pc = (if s.getV x = nn then s.pc + 2 else s.pc) ∧ Frame [] [.pc] s t

/-- R74. 4XNN skips when V[x] differs from nn. -/
def Obligations.SkipIfNotEqualImmediate : Prop :=
  Selects 0xF000#16 0x4000#16 (fun w => .sneImm (fieldX w) (fieldNn w)) ∧
  ∀ (x : Reg) (nn : Byte) (s : State), ∃ t, exec (.sneImm x nn) s = .next t ∧
    t.pc = (if s.getV x ≠ nn then s.pc + 2 else s.pc) ∧ Frame [] [.pc] s t

/-- R75. 5XY0 skips when V[x] equals V[y]. -/
def Obligations.SkipIfRegistersEqual : Prop :=
  Selects 0xF00F#16 0x5000#16 (fun w => .seReg (fieldX w) (fieldY w)) ∧
  ∀ (x y : Reg) (s : State), ∃ t, exec (.seReg x y) s = .next t ∧
    t.pc = (if s.getV x = s.getV y then s.pc + 2 else s.pc) ∧ Frame [] [.pc] s t

/-- R76. 9XY0 skips when V[x] differs from V[y]. -/
def Obligations.SkipIfRegistersDiffer : Prop :=
  Selects 0xF00F#16 0x9000#16 (fun w => .sneReg (fieldX w) (fieldY w)) ∧
  ∀ (x y : Reg) (s : State), ∃ t, exec (.sneReg x y) s = .next t ∧
    t.pc = (if s.getV x ≠ s.getV y then s.pc + 2 else s.pc) ∧ Frame [] [.pc] s t

/-- R77. BNNN sets PC to nnn + V[0], not reduced. -/
def Obligations.JumpOffsetAddsV0 : Prop :=
  Selects 0xF000#16 0xB000#16 (fun w => .jpV0 (fieldNnn w)) ∧
  ∀ (nnn : BitVec 12) (s : State), ∃ t, exec (.jpV0 nnn) s = .next t ∧
    t.pc.toNat = nnn.toNat + (s.getV 0).toNat ∧ Frame [] [.pc] s t

/-- R80. 6XNN sets V[x] to nn. -/
def Obligations.LoadImmediateSetsVx : Prop :=
  Selects 0xF000#16 0x6000#16 (fun w => .ldImm (fieldX w) (fieldNn w)) ∧
  ∀ (x : Reg) (nn : Byte) (s : State), ∃ t, exec (.ldImm x nn) s = .next t ∧
    t.getV x = nn ∧ Frame [x] [] s t

/-- R81. 7XNN adds nn to V[x] modulo 256 with no flag. -/
def Obligations.AddImmediateWraps : Prop :=
  Selects 0xF000#16 0x7000#16 (fun w => .addImm (fieldX w) (fieldNn w)) ∧
  ∀ (x : Reg) (nn : Byte) (s : State), ∃ t, exec (.addImm x nn) s = .next t ∧
    (t.getV x).toNat = ((s.getV x).toNat + nn.toNat) % 256 ∧ Frame [x] [] s t

/-- R82. 8XY0 copies V[y] to V[x]. -/
def Obligations.CopyRegister : Prop :=
  Selects 0xF00F#16 0x8000#16 (fun w => .ldReg (fieldX w) (fieldY w)) ∧
  ∀ (x y : Reg) (s : State), ∃ t, exec (.ldReg x y) s = .next t ∧
    t.getV x = s.getV y ∧ Frame [x] [] s t

/-- R83. 8XY1 is the bitwise OR of V[x] and V[y] into V[x], VF untouched. -/
def Obligations.OrRegister : Prop :=
  Selects 0xF00F#16 0x8001#16 (fun w => .orReg (fieldX w) (fieldY w)) ∧
  ∀ (x y : Reg) (s : State), ∃ t, exec (.orReg x y) s = .next t ∧
    (∀ b, b < 8 → (t.getV x).getLsbD b = ((s.getV x).getLsbD b || (s.getV y).getLsbD b)) ∧ Frame [x] [] s t

/-- R84. 8XY2 is the bitwise AND of V[x] and V[y] into V[x], VF untouched. -/
def Obligations.AndRegister : Prop :=
  Selects 0xF00F#16 0x8002#16 (fun w => .andReg (fieldX w) (fieldY w)) ∧
  ∀ (x y : Reg) (s : State), ∃ t, exec (.andReg x y) s = .next t ∧
    (∀ b, b < 8 → (t.getV x).getLsbD b = ((s.getV x).getLsbD b && (s.getV y).getLsbD b)) ∧ Frame [x] [] s t

/-- R85. 8XY3 is the bitwise XOR of V[x] and V[y] into V[x], VF untouched. -/
def Obligations.XorRegister : Prop :=
  Selects 0xF00F#16 0x8003#16 (fun w => .xorReg (fieldX w) (fieldY w)) ∧
  ∀ (x y : Reg) (s : State), ∃ t, exec (.xorReg x y) s = .next t ∧
    (∀ b, b < 8 → (t.getV x).getLsbD b = ((s.getV x).getLsbD b ^^ (s.getV y).getLsbD b)) ∧ Frame [x] [] s t

/-- R86. 8XY4 adds V[y] to V[x] modulo 256 and leaves the carry in VF. -/
def Obligations.AddRegisterSetsCarry : Prop :=
  Selects 0xF00F#16 0x8004#16 (fun w => .addReg (fieldX w) (fieldY w)) ∧
  ∀ (x y : Reg) (s : State), ∃ t, exec (.addReg x y) s = .next t ∧
    (x ≠ 15 → (t.getV x).toNat = ((s.getV x).toNat + (s.getV y).toNat) % 256) ∧
    (t.getV 15).toNat = (if 255 < (s.getV x).toNat + (s.getV y).toNat then 1 else 0) ∧ Frame [x, 15] [] s t

/-- R87, 92_eei_decisions.md D6. 8XY5 writes the strict flag to VF, then the difference of the registers as they then
are (the order where VF is an operand: the spec's decision D6). -/
def Obligations.SubtractFlagFirst : Prop :=
  Selects 0xF00F#16 0x8005#16 (fun w => .subReg (fieldX w) (fieldY w)) ∧
  ∀ (x y : Reg) (s : State), ∃ t, exec (.subReg x y) s = .next t ∧
    (t.getV x).toNat = (let f := (if (s.getV y).toNat < (s.getV x).toNat then 1 else 0); (reread s f x + 256 - reread s f y) % 256) ∧
    (x ≠ 15 → (t.getV 15).toNat = (if (s.getV y).toNat < (s.getV x).toNat then 1 else 0)) ∧ Frame [x, 15] [] s t

/-- R88, 92_eei_decisions.md D6. 8XY6 writes bit 0 of V[x] to VF, then shifts V[x] right, ignoring V[y] (the order where
VF is an operand: the spec's decision D6). -/
def Obligations.ShiftRightFlagFirst : Prop :=
  Selects 0xF00F#16 0x8006#16 (fun w => .shr (fieldX w) (fieldY w)) ∧
  ∀ (x y : Reg) (s : State), ∃ t, exec (.shr x y) s = .next t ∧
    (t.getV x).toNat = (let f := ((s.getV x).toNat % 2); reread s f x / 2) ∧
    (x ≠ 15 → (t.getV 15).toNat = ((s.getV x).toNat % 2)) ∧ Frame [x, 15] [] s t

/-- R89, 92_eei_decisions.md D6. 8XY7 writes the strict flag to VF, then V[y] - V[x] of the registers as they then are
(the order where VF is an operand: the spec's decision D6). -/
def Obligations.ReverseSubtractFlagFirst : Prop :=
  Selects 0xF00F#16 0x8007#16 (fun w => .subnReg (fieldX w) (fieldY w)) ∧
  ∀ (x y : Reg) (s : State), ∃ t, exec (.subnReg x y) s = .next t ∧
    (t.getV x).toNat = (let f := (if (s.getV x).toNat < (s.getV y).toNat then 1 else 0); (reread s f y + 256 - reread s f x) % 256) ∧
    (x ≠ 15 → (t.getV 15).toNat = (if (s.getV x).toNat < (s.getV y).toNat then 1 else 0)) ∧ Frame [x, 15] [] s t

/-- R90, 92_eei_decisions.md D6. 8XYE writes bit 7 of V[x] to VF, then shifts V[x] left, ignoring V[y] (the order where
VF is an operand: the spec's decision D6). -/
def Obligations.ShiftLeftFlagFirst : Prop :=
  Selects 0xF00F#16 0x800E#16 (fun w => .shl (fieldX w) (fieldY w)) ∧
  ∀ (x y : Reg) (s : State), ∃ t, exec (.shl x y) s = .next t ∧
    (t.getV x).toNat = (let f := ((s.getV x).toNat / 128); 2 * reread s f x % 256) ∧
    (x ≠ 15 → (t.getV 15).toNat = ((s.getV x).toNat / 128)) ∧ Frame [x, 15] [] s t

/-- R91, R21, 92_eei_decisions.md D16. CXNN sets V[x] to this cycle's random byte AND nn (the bound 254: log entry 4,
the spec's decision D16). -/
def Obligations.RandomIsMaskedDraw : Prop :=
  Selects 0xF000#16 0xC000#16 (fun w => .rnd (fieldX w) (fieldNn w)) ∧
  (∀ (x : Reg) (nn : Byte) (s : State), ∃ t, exec (.rnd x nn) s = .next t ∧
    (∀ b, b < 8 → (t.getV x).getLsbD b = (s.rnd.val.testBit b && nn.getLsbD b)) ∧ s.rnd.val ≤ 254 ∧ Frame [x] [] s t) ∧
  ∀ (x : Reg) (nn : Byte) (s : State) (h : CycleInput) (later : List CycleInput), Fetches s (.rnd x nn) →
    s.pending = h :: later → ∃ t, step s = .next t ∧
      ∀ b, b < 8 → (t.getV x).getLsbD b = (h.rnd.val.testBit b && nn.getLsbD b)

/-- R100. ANNN sets I to nnn. -/
def Obligations.LoadIndexSetsI : Prop :=
  Selects 0xF000#16 0xA000#16 (fun w => .ldI (fieldNnn w)) ∧
  ∀ (nnn : BitVec 12) (s : State), ∃ t, exec (.ldI nnn) s = .next t ∧ t.i.toNat = nnn.toNat ∧ Frame [] [.i] s t

/-- R101. FX1E adds V[x] to I modulo 65536 with no flag and no fault. -/
def Obligations.AddIndexWrapsAt65536 : Prop :=
  Selects 0xF0FF#16 0xF01E#16 (fun w => .addI (fieldX w)) ∧
  ∀ (x : Reg) (s : State), ∃ t, exec (.addI x) s = .next t ∧
    t.i.toNat = (s.i.toNat + (s.getV x).toNat) % 65536 ∧ Frame [] [.i] s t

/-- R102, 92_eei_decisions.md D15. FX29 sets I to 5 * V[x] for every value of V[x] (above 15: the spec's decision D15). -/
def Obligations.FontIndexIsFiveTimesVx : Prop :=
  Selects 0xF0FF#16 0xF029#16 (fun w => .ldFont (fieldX w)) ∧
  ∀ (x : Reg) (s : State), ∃ t, exec (.ldFont x) s = .next t ∧ t.i.toNat = 5 * (s.getV x).toNat ∧ Frame [] [.i] s t

/-- R103. FX33 stores the three decimal digits of V[x] at I, I+1, I+2. -/
def Obligations.BcdStoresThreeDigits : Prop :=
  Selects 0xF0FF#16 0xF033#16 (fun w => .ldBcd (fieldX w)) ∧
  (∀ (x : Reg) (s : State), s.mem.wf = true → s.i.toNat + 2 ≤ 4095 → ∃ t, exec (.ldBcd x) s = .next t ∧
    (t.byteAt s.i.toNat).toNat = (s.getV x).toNat / 100 ∧
    (t.byteAt (s.i.toNat + 1)).toNat = (s.getV x).toNat / 10 % 10 ∧
    (t.byteAt (s.i.toNat + 2)).toNat = (s.getV x).toNat % 10 ∧
    (∀ a, a < s.i.toNat ∨ s.i.toNat + 2 < a → t.byteAt a = s.byteAt a) ∧ Frame [] [.mem] s t) ∧
  ∀ (x : Reg) (s : State), 4095 < s.i.toNat + 2 → exec (.ldBcd x) s = .fault (.memWriteRange (max s.i.toNat 4096))

/-- R104. FX55 stores V[0] to V[x-1] at I and not V[x]. -/
def Obligations.StoreRegistersExclusive : Prop :=
  Selects 0xF0FF#16 0xF055#16 (fun w => .storeRegs (fieldX w)) ∧
  (∀ (x : Reg) (s : State), s.mem.wf = true → (x.val = 0 ∨ s.i.toNat + x.val - 1 ≤ 4095) →
    ∃ t, exec (.storeRegs x) s = .next t ∧
      (∀ k : Reg, k.val < x.val → t.byteAt (s.i.toNat + k.val) = s.getV k) ∧
      (∀ a, a < s.i.toNat ∨ s.i.toNat + x.val ≤ a → t.byteAt a = s.byteAt a) ∧ Frame [] [.mem] s t) ∧
  ∀ (x : Reg) (s : State), 1 ≤ x.val → 4095 < s.i.toNat + x.val - 1 →
    exec (.storeRegs x) s = .fault (.memWriteRange (max s.i.toNat 4096))

/-- R105. FX65 loads V[0] to V[x-1] from I and not V[x]. -/
def Obligations.LoadRegistersExclusive : Prop :=
  Selects 0xF0FF#16 0xF065#16 (fun w => .loadRegs (fieldX w)) ∧
  (∀ (x : Reg) (s : State), (x.val = 0 ∨ s.i.toNat + x.val - 1 ≤ 4095) → ∃ t, exec (.loadRegs x) s = .next t ∧
    (∀ k : Reg, k.val < x.val → t.getV k = s.byteAt (s.i.toNat + k.val)) ∧
    (∀ k : Reg, x.val ≤ k.val → t.getV k = s.getV k) ∧ ∀ p : Part, p.same s t) ∧
  ∀ (x : Reg) (s : State), 1 ≤ x.val → 4095 < s.i.toNat + x.val - 1 →
    exec (.loadRegs x) s = .fault (.memReadRange (max s.i.toNat 4096))

/-- R110. 00E0 clears every cell and sets REDRAW. -/
def Obligations.ClearScreenZeroesCells : Prop :=
  Selects 0xFFFF#16 0x00E0#16 (fun _ => .cls) ∧
  ∀ s : State, ∃ t, exec .cls s = .next t ∧ (∀ row col, t.cell row col = false) ∧ t.redraw = true ∧
    Frame [] [.fb, .redraw] s t

/-- R111, R112, 93_implementation_defined.md U18, 92_eei_decisions.md D7, 92_eei_decisions.md D9, 92_eei_decisions.md
D10. DXYN XORs the sprite onto the cells, wrapping both axes, and sets VF and REDRAW (the bit order is log entry 9;
the spec's decisions D7 to D10). -/
def Obligations.DrawXorsSprite : Prop :=
  Selects 0xF000#16 0xD000#16 (fun w => .drw (fieldX w) (fieldY w) (fieldN w)) ∧
  (∀ (x y : Reg) (n : Fin 16) (s : State), (n.val = 0 ∨ s.i.toNat + n.val - 1 ≤ 4095) →
    ∃ t, exec (.drw x y n) s = .next t ∧
      (∀ r c (row : Fin 32) (col : Fin 64), r < n.val → c < 8 → row.val = ((s.getV y).toNat + r) % 32 →
        col.val = ((s.getV x).toNat + c) % 64 →
        t.cell row col = (s.cell row col ^^ (s.byteAt (s.i.toNat + r)).getLsbD (7 - c))) ∧
      (∀ (row : Fin 32) (col : Fin 64), (∀ r c, r < n.val → c < 8 → row.val = ((s.getV y).toNat + r) % 32 →
        col.val ≠ ((s.getV x).toNat + c) % 64) → t.cell row col = s.cell row col) ∧
      (∀ r c (row : Fin 32) (col : Fin 64), r < n.val → c < 8 → row.val = ((s.getV y).toNat + r) % 32 →
        col.val = ((s.getV x).toNat + c) % 64 → t.cell row col = true → t.getV 15 = 1) ∧
      ((∀ r c (row : Fin 32) (col : Fin 64), r < n.val → c < 8 → row.val = ((s.getV y).toNat + r) % 32 →
        col.val = ((s.getV x).toNat + c) % 64 → t.cell row col = false) → t.getV 15 = 0) ∧
      t.redraw = true ∧ Frame [15] [.fb, .redraw] s t) ∧
  ∀ (x y : Reg) (n : Fin 16) (s : State), 1 ≤ n.val → 4095 < s.i.toNat + n.val - 1 →
    exec (.drw x y n) s = .fault (.memReadRange (max s.i.toNat 4096))

/-- R120, 92_eei_decisions.md D14. EX9E skips when key V[x] is pressed and faults when V[x] names no key (the fault: the
spec's decision D14). -/
def Obligations.SkipIfKeyPressed : Prop :=
  Selects 0xF0FF#16 0xE09E#16 (fun w => .skp (fieldX w)) ∧
  (∀ (x k : Reg) (s : State), (s.getV x).toNat = k.val → ∃ t, exec (.skp x) s = .next t ∧
    t.pc = (if s.keyDown k = true then s.pc + 2 else s.pc) ∧ Frame [] [.pc] s t) ∧
  ∀ (x : Reg) (s : State), 15 < (s.getV x).toNat → exec (.skp x) s = .fault (.keyIndexRange (s.getV x).toNat)

/-- R121, 92_eei_decisions.md D14. EXA1 skips when key V[x] is not pressed and faults when V[x] names no key (the fault:
the spec's decision D14). -/
def Obligations.SkipIfKeyNotPressed : Prop :=
  Selects 0xF0FF#16 0xE0A1#16 (fun w => .sknp (fieldX w)) ∧
  (∀ (x k : Reg) (s : State), (s.getV x).toNat = k.val → ∃ t, exec (.sknp x) s = .next t ∧
    t.pc = (if s.keyDown k = false then s.pc + 2 else s.pc) ∧ Frame [] [.pc] s t) ∧
  ∀ (x : Reg) (s : State), 15 < (s.getV x).toNat → exec (.sknp x) s = .fault (.keyIndexRange (s.getV x).toNat)

/-- R122. FX07 copies DT to V[x] before the cycle's decrement. -/
def Obligations.ReadDelayTimer : Prop :=
  Selects 0xF0FF#16 0xF007#16 (fun w => .ldVxDt (fieldX w)) ∧
  (∀ (x : Reg) (s : State), ∃ t, exec (.ldVxDt x) s = .next t ∧ t.getV x = s.dt ∧ Frame [x] [] s t) ∧
  ∀ (x : Reg) (s : State), Fetches s (.ldVxDt x) → ∃ t, step s = .next t ∧ t.getV x = s.dt ∧
    t.dt.toNat = (t.getV x).toNat - 1

/-- R124. FX15 sets DT to V[x], and the same cycle's timer stage decrements it. -/
def Obligations.SetDelayTimer : Prop :=
  Selects 0xF0FF#16 0xF015#16 (fun w => .ldDtVx (fieldX w)) ∧
  (∀ (x : Reg) (s : State), ∃ t, exec (.ldDtVx x) s = .next t ∧ t.dt = s.getV x ∧ Frame [] [.dt] s t) ∧
  ∀ (x : Reg) (s : State), Fetches s (.ldDtVx x) → ∃ t, step s = .next t ∧ t.dt.toNat = (s.getV x).toNat - 1

/-- R125. FX18 sets ST to V[x], and the same cycle's timer stage sees the new value. -/
def Obligations.SetSoundTimer : Prop :=
  Selects 0xF0FF#16 0xF018#16 (fun w => .ldStVx (fieldX w)) ∧
  (∀ (x : Reg) (s : State), ∃ t, exec (.ldStVx x) s = .next t ∧ t.st = s.getV x ∧ Frame [] [.st] s t) ∧
  ∀ (x : Reg) (s : State), Fetches s (.ldStVx x) → ∃ t, step s = .next t ∧ t.st.toNat = (s.getV x).toNat - 1 ∧
    (t.out.beep = true ↔ (s.getV x).toNat = 1)

/-- R123, 92_eei_decisions.md D11, 92_eei_decisions.md D12, 92_eei_decisions.md D13. FX0A waits with no key pressed, and
otherwise puts the number of a pressed key in V[x] (the spec's decisions D11 to D13; log entries 6, 18). -/
def Obligations.KeyWaitOrKeyNumber : Prop :=
  Selects 0xF0FF#16 0xF00A#16 (fun w => .ldVxKey (fieldX w)) ∧
  (∀ (x : Reg) (s : State), ¬ noKey s.keys → ∃ t k, exec (.ldVxKey x) s = .next t ∧ s.keyDown k = true ∧
    (t.getV x).toNat = k.val ∧ Frame [x] [] s t) ∧
  (∀ (x k : Reg) (s : State), s.keyDown k = true → ∃ pick t, exec (.ldVxKey x) { s with keyPick := pick } = .next t ∧
    (t.getV x).toNat = k.val) ∧
  (∀ (x : Reg) (s : State), noKey s.keys → ∃ t, exec (.ldVxKey x) s = .next t ∧ t.pc = s.pc - 2 ∧
    t.out.status = .waitingForKey ∧ Frame [] [.pc, .out] s t) ∧
  (∀ (x : Reg) (s : State), Fetches s (.ldVxKey x) → noKey (presentedKeys s) → ∃ t, step s = .next t ∧
    t.out.status = .waitingForKey ∧ t.out.beep = false ∧ t.redraw = false ∧
    Frame [] (.redraw :: cycleParts) s t) ∧
  ∀ (x : Reg) (s : State), Fetches s (.ldVxKey x) → ¬ noKey (presentedKeys s) → ∃ t, step s = .next t ∧
    t.out.status = .completed ∧ t.pc.toNat = s.pc.toNat + 2 ∧ t.dt.toNat = s.dt.toNat - 1 ∧
    t.st.toNat = s.st.toNat - 1 ∧ Frame [x] ([.pc, .dt, .st, .redraw] ++ cycleParts) s t

/-- R56, 92_eei_decisions.md D5, 92_eei_decisions.md D27. An unrecognized opcode changes nothing in its stage and emits
the diagnostic; the cycle goes on normally (the spec's decisions D5, D27; log entry 18). -/
def Obligations.UnrecognizedIsNoOpWithDiagnostic : Prop :=
  (∀ w : Word, (∀ r ∈ opcodeTable, w &&& r.mask ≠ r.pattern) → decodeWord w = .unrecognized w) ∧
  (∀ (w : Word) (s : State), ∃ t, exec (.unrecognized w) s = .next t ∧ t.out.diag = some ⟨w, s.pc - 2⟩ ∧
    t.out.status = s.out.status ∧ t.out.beep = s.out.beep ∧ Frame [] [.out] s t) ∧
  (∀ (w : Word) (s : State), Fetches s (.unrecognized w) → ∃ t, step s = .next t ∧
    t.pc.toNat = s.pc.toNat + 2 ∧ t.redraw = false ∧ t.dt.toNat = s.dt.toNat - 1 ∧ t.st.toNat = s.st.toNat - 1 ∧
    t.out.status = .completed ∧ (t.out.beep = true ↔ s.st.toNat = 1) ∧ t.out.diag = some ⟨w, s.pc⟩ ∧
    Frame [] ([.pc, .redraw, .dt, .st] ++ cycleParts) s t) ∧
  ∀ (i : Instr) (s t : State), Fetches s i → (∀ w, i ≠ .unrecognized w) → step s = .next t → t.out.diag = none

/-- 30_encoding.md section 1. The opcode's fields are the fixed bit ranges 15..12, 11..8, 7..4, 3..0, 7..0, 11..0 (the
spec's own derivation in R51). -/
def Obligations.FieldsAreBitRanges : Prop :=
  ∀ w : Word, (fieldOp w).toNat = w.toNat / 4096 ∧ (fieldX w).val = w.toNat / 256 % 16 ∧
    (fieldY w).val = w.toNat / 16 % 16 ∧ (fieldN w).val = w.toNat % 16 ∧ (fieldNn w).toNat = w.toNat % 256 ∧
    (fieldNnn w).toNat = w.toNat % 4096

/-- 30_encoding.md section 2, 92_eei_decisions.md D5. A row selects an opcode exactly when the opcode decodes to an
instruction of that row; the rows are disjoint (all literal digits: the spec's decision D5). -/
def Obligations.DecodeFollowsOpcodeTable : Prop :=
  (∀ (w : Word) (r : Row), r ∈ opcodeTable → (w &&& r.mask = r.pattern ↔ (decodeWord w).row = some r)) ∧
  (∀ (w : Word) (r q : Row), r ∈ opcodeTable → q ∈ opcodeTable → w &&& r.mask = r.pattern →
    w &&& q.mask = q.pattern → r = q) ∧
  ∀ w : Word, (∀ r ∈ opcodeTable, w &&& r.mask ≠ r.pattern) → decodeWord w = .unrecognized w

/-- 30_encoding.md section 2, 92_eei_decisions.md D5. The unrecognized opcodes are exactly the forms (a) to (f) (the
spec's decision D5). -/
def Obligations.UnrecognizedOpcodesAreThoseListed : Prop :=
  ∀ w : Word, decodeWord w = .unrecognized w ↔ unrecognizedForm w.toNat

/-- 30_encoding.md section 1, 30_encoding.md section 2. Decoding the encoding of a well-formed instruction gives it
back. -/
def Obligations.DecodeEncodeRoundTrip : Prop :=
  ∀ (i : Instr) (rest : List Byte), i.wf = true → decode (encode i ++ rest) = .ok (i, rest)

/-- 30_encoding.md section 1, 30_encoding.md section 2. Every opcode is the encoding of the instruction it decodes to,
and that instruction is well-formed. -/
def Obligations.EncodeDecodeRoundTrip : Prop :=
  ∀ w : Word, (decodeWord w).wf = true ∧ encodeWord (decodeWord w) = w

/-- 95_test_vectors.md section 2.1, 92_eei_decisions.md D5. Opcodes of the spec's decode vectors decode as it says
(0x5AB1: the spec's decision D5). -/
def Obligations.SpecWordsDecode : Prop :=
  decodeWord 0x00EE#16 = .ret ∧ decodeWord 0x1ABC#16 = .jp 0xABC#12 ∧ decodeWord 0x3A42#16 = .seImm 10 0x42#8 ∧
  decodeWord 0x8ABE#16 = .shl 10 11 ∧ decodeWord 0xA123#16 = .ldI 0x123#12 ∧ decodeWord 0xD12A#16 = .drw 1 2 10 ∧
  decodeWord 0xE59E#16 = .skp 5 ∧ decodeWord 0xF565#16 = .loadRegs 5 ∧
  decodeWord 0x5AB1#16 = .unrecognized 0x5AB1#16

/-- R35, 92_eei_decisions.md D2. The fetch reads the bytes at PC and PC+1, high byte first, and faults unless both exist
(PC = 4095: the spec's decision D2). -/
def Obligations.FetchIsBigEndianAndChecked : Prop :=
  (∀ s : State, s.pc.toNat + 1 ≤ 4095 → ∃ w, fetch s = .ok w ∧
    w.toNat = (s.byteAt s.pc.toNat).toNat * 256 + (s.byteAt (s.pc.toNat + 1)).toNat) ∧
  ∀ s : State, s.fault = none → 4095 < s.pc.toNat + 1 → step s = .fault (.fetchRange s.pc.toNat)

/-- R60, 30_encoding.md section 4. A cycle fetches, advances PC by 2, clears REDRAW, runs the decoded instruction and
runs the timer stage (inputs and outputs in the state: log entries 6, 7). -/
def Obligations.StepRunsDecodedInstruction : Prop :=
  (∀ (s : State) (i : Instr), s.fault = none → s.pc.toNat + 1 ≤ 4095 →
    decode [s.byteAt s.pc.toNat, s.byteAt (s.pc.toNat + 1)] = .ok (i, []) →
    step s = finish (exec i (beginCycle s))) ∧
  (∀ u : State, finish (.next u) = .next (endCycle u)) ∧ (∀ f : Fault, finish (.fault f) = .fault f) ∧
  (∀ s : State, (beginCycle s).pc = s.pc + 2 ∧ (beginCycle s).redraw = false ∧
    (beginCycle s).keys = presentedKeys s ∧
    (beginCycle s).out = { status := .completed, beep := false, diag := none } ∧
    Frame [] ([.pc, .redraw] ++ cycleParts) s (beginCycle s)) ∧
  (∀ (s : State) (h : CycleInput) (later : List CycleInput), s.pending = h :: later →
    (beginCycle s).keys = h.keys ∧ (beginCycle s).rnd = h.rnd ∧ (beginCycle s).keyPick = h.keyPick ∧
    (beginCycle s).pending = later) ∧
  (∀ u : State, u.out.status = .completed → (endCycle u).dt.toNat = u.dt.toNat - 1 ∧
    (endCycle u).st.toNat = u.st.toNat - 1 ∧ ((endCycle u).out.beep = true ↔ u.st.toNat = 1) ∧
    (endCycle u).out.status = .completed ∧ (endCycle u).out.diag = u.out.diag ∧
    Frame [] [.dt, .st, .out] u (endCycle u)) ∧
  ∀ u : State, u.out.status = .waitingForKey → endCycle u = u

/-- R61. The net effect of a cycle on PC, for every instruction (the keys where the host presents none: log entry 6). -/
def Obligations.CycleNetEffectOnPc : Prop :=
  (∀ s t : State, step s = .next t → t.pc.toNat = expectedPc s (decodeWord (opcodeAt s s.pc.toNat))) ∧
  ∀ (input : CycleInput) (s t : State) (f : Fault), cycleCall input s = .faulted f t → t.pc = s.pc

/-- R143, R144, 92_eei_decisions.md D12. Each completed cycle counts both timers down once and beeps exactly when ST is
1; a waiting cycle does neither (waiting: the spec's decision D12). -/
def Obligations.TimerStageCountsCompletedCycles : Prop :=
  ∀ s t : State, step s = .next t →
    (t.out.status = .completed ∨ t.out.status = .waitingForKey) ∧
    (t.out.status = .completed →
      t.dt.toNat = dtSeen s (decodeWord (opcodeAt s s.pc.toNat)) - 1 ∧
      t.st.toNat = stSeen s (decodeWord (opcodeAt s s.pc.toNat)) - 1 ∧
      (t.out.beep = true ↔ stSeen s (decodeWord (opcodeAt s s.pc.toNat)) = 1)) ∧
    (t.out.status = .waitingForKey → t.dt = s.dt ∧ t.st = s.st ∧ t.out.beep = false)

/-- R18. After a cycle REDRAW is 1 exactly when its instruction was 00E0 or DXYN. -/
def Obligations.RedrawSetOnlyByDisplay : Prop :=
  ∀ s t : State, step s = .next t → (t.redraw = true ↔ decodeWord (opcodeAt s s.pc.toNat) = .cls ∨
    ∃ x y n, decodeWord (opcodeAt s s.pc.toNat) = .drw x y n)

/-- R132, 60_exceptions.md section 1, 92_eei_decisions.md D3, 92_eei_decisions.md D14. An instruction faults exactly on
its condition in the fault table, and otherwise gives a next state (codes, info and key numbers: the spec's
decisions D3, D14). -/
def Obligations.FaultsAreThoseOfTheTable : Prop :=
  (∀ (i : Instr) (s : State) (f : Fault), exec i s = .fault f ↔ expectedFault i s = some f) ∧
  (∀ (i : Instr) (s : State), expectedFault i s = none → ∃ t, exec i s = .next t) ∧
  (∀ (s : State) (f : Fault), fetch s = .error f ↔ 4095 < s.pc.toNat + 1 ∧ f = .fetchRange s.pc.toNat) ∧
  ∀ n : Nat, (faultCode (.fetchRange n) = 1 ∧ faultCode (.memReadRange n) = 2 ∧ faultCode (.memWriteRange n) = 3 ∧
    faultCode (.stackOverflow n) = 4 ∧ faultCode (.stackUnderflow n) = 5 ∧ faultCode (.keyIndexRange n) = 6) ∧
    ∀ f ∈ [Fault.fetchRange n, .memReadRange n, .memWriteRange n, .stackOverflow n, .stackUnderflow n,
      .keyIndexRange n], faultInfo f = n

/-- 60_exceptions.md section 1, 60_exceptions.md section 7, 92_eei_decisions.md D2. A faulting cycle commits nothing but
the fault record, and after it no cycle and no load is accepted until reset (the spec's decision D2; log entries 2,
7). -/
def Obligations.FaultIsPreciseAndSticky : Prop :=
  (∀ (input : CycleInput) (s t : State) (f : Fault), cycleCall input s = .faulted f t →
    t.fault = some f ∧ t.out = { status := .faulted f, beep := false, diag := none } ∧
    Frame [] [.fault, .out] s t ∧ t.mem = s.mem ∧ step t = .fault f ∧
    (∀ input', cycleCall input' t = .notAccepted) ∧ (∀ bytes, loadProgram bytes t = .notAccepted) ∧
    resetOp t = State.reset) ∧
  ∀ s t : State, step s = .next t → s.fault = none ∧ t.fault = none

/-- R46, 92_eei_decisions.md D23. LoadProgram stores the image at 512 onward and nothing else, and rejects one longer
than 3584 bytes (when a load is allowed: the spec's decision D23). -/
def Obligations.LoadProgramWritesOnlyTheImage : Prop :=
  (∀ (bytes : List Byte) (s : State), s.fault = none → 3584 < bytes.length → loadProgram bytes s = .tooLong) ∧
  (∀ (bytes : List Byte) (s : State), s.fault = none → s.mem.wf = true → bytes.length ≤ 3584 →
    ∃ t, loadProgram bytes s = .ok t ∧ (∀ k (h : k < bytes.length), t.byteAt (512 + k) = bytes[k]) ∧
      (∀ a, a < 512 ∨ 512 + bytes.length ≤ a → t.byteAt a = s.byteAt a) ∧ Frame [] [.mem] s t) ∧
  ∀ (bytes : List Byte) (s : State), s.fault ≠ none → loadProgram bytes s = .notAccepted

/-- R25. After reset every piece of the spec's state has the value the spec gives. -/
def Obligations.ResetValues : Prop :=
  (∀ r, State.reset.getV r = 0) ∧ State.reset.i = 0 ∧ State.reset.pc.toNat = 512 ∧ State.reset.sp.val = 0 ∧
  (∀ k, State.reset.getSlot k = 0) ∧ State.reset.dt = 0 ∧ State.reset.st = 0 ∧
  (∀ row col, State.reset.cell row col = false) ∧ State.reset.redraw = false ∧ noKey State.reset.keys ∧
  State.reset.fault = none ∧ Config.font.length = 80 ∧
  (∀ a (h : a < Config.font.length), State.reset.byteAt a = Config.font[a]) ∧
  (∀ a, 80 ≤ a → a ≤ 4095 → State.reset.byteAt a = 0) ∧ ∀ s : State, resetOp s = State.reset

/-- R12, R15, R25, R30. The reset state and every launch state meet the invariant. -/
def Obligations.ResetMeetsInvariant : Prop :=
  State.reset.Inv ∧ ∀ (program : List Byte) (inputs : List CycleInput), program.length ≤ 3584 →
    (launch program inputs).Inv

/-- R12, R15, R30, R34. Every cycle keeps the invariant: memory canonical and within 0..4095, STACK[0] never populated,
PC at most 4350. -/
def Obligations.StepKeepsInvariant : Prop :=
  ∀ s t : State, s.Inv → step s = .next t → t.Inv

/-- 10_state.md section 1, R106, R142. Which pieces of state each instruction may write, for every instruction. -/
def Obligations.InstructionsWriteOnlyTheirParts : Prop :=
  ∀ (i : Instr) (s t : State), exec i s = .next t → ∀ p : Part, p ∉ writes i → p.same s t

/-- R10, R11, R106. A general register changes only as a destination, as VF by the six flag writers, or as V[0] to
V[x-1] by FX65. -/
def Obligations.OnlyNamedRegistersChange : Prop :=
  ∀ (i : Instr) (s t : State) (r : Reg), exec i s = .next t → ¬ writesReg i r → t.getV r = s.getV r

/-- R70, R72, 40_control_flow.md section 2. 2NNN followed by 00EE at nnn restores PC to after the call and SP to its
value before it. -/
def Obligations.CallThenReturnRestores : Prop :=
  ∀ (s : State) (nnn : BitVec 12), Fetches s (.call nnn) → s.sp.val ≠ 15 → nnn.toNat + 1 ≤ 4095 →
    decodeWord (opcodeAt s nnn.toNat) = .ret → ∃ t, Host.Core.run core 2 s = .next t ∧
      t.pc.toNat = s.pc.toNat + 2 ∧ t.sp = s.sp ∧
      Frame [] ([.pc, .stack, .dt, .st, .redraw] ++ cycleParts) s t

/-- R104, R105, 42_index_memory.md. FX55 then FX65 with the same x and I round-trips V[0] to V[x-1] through memory. -/
def Obligations.StoreThenLoadRestores : Prop :=
  ∀ (x : Reg) (s : State), s.mem.wf = true → (x.val = 0 ∨ s.i.toNat + x.val - 1 ≤ 4095) →
    ∃ t, exec (.storeRegs x) s = .next t ∧ ∀ u : State, u.mem = t.mem → u.i = s.i →
      ∃ w, exec (.loadRegs x) u = .next w ∧ (∀ k : Reg, k.val < x.val → w.getV k = s.getV k) ∧
        ∀ k : Reg, x.val ≤ k.val → w.getV k = u.getV k

/-- R44, R38. Two bytes FX55 stored are the opcode the next fetch there reads. -/
def Obligations.StoresAreSeenByTheFetch : Prop :=
  ∀ (x k l : Reg) (s : State), s.mem.wf = true → s.i.toNat + x.val - 1 ≤ 4095 → l.val = k.val + 1 → l.val < x.val →
    ∃ t, exec (.storeRegs x) s = .next t ∧ ∀ u : State, u.mem = t.mem → u.pc.toNat = s.i.toNat + k.val →
      ∃ w, fetch u = .ok w ∧ w.toNat = (s.getV k).toNat * 256 + (s.getV l).toNat

/-- R123, R165, 70_reset_and_hazards.md section 3, 92_eei_decisions.md D11, 92_eei_decisions.md D12. FX0A waits for as
many cycles as no key is presented, and nothing moves meanwhile (the spec's decisions D11, D12). -/
def Obligations.KeyWaitLastsWhileNoKeyIsPressed : Prop :=
  ∀ (k : Nat) (x : Reg) (s : State), Fetches s (.ldVxKey x) → k ≤ s.pending.length →
    (∀ h ∈ s.pending.take k, noKey h.keys) → ∃ t, Host.Core.run core k s = .next t ∧ Fetches t (.ldVxKey x) ∧
      t.pending = s.pending.drop k ∧ Frame [] (.redraw :: cycleParts) s t

/-- R170, R71, 70_reset_and_hazards.md section 5. A machine at a jump to itself runs for ever and changes nothing but
REDRAW and the timers that run down. -/
def Obligations.ParkedMachineStaysParked : Prop :=
  ∀ (k : Nat) (s : State), Parked s → ∃ t, Host.Core.run core k s = .next t ∧ Parked t ∧
    t.dt.toNat = s.dt.toNat - k ∧ t.st.toNat = s.st.toNat - k ∧ (1 ≤ k → t.redraw = false) ∧
    Frame [] ([.dt, .st, .redraw] ++ cycleParts) s t

/-- R146, R145, R17, R21, R162, 60_exceptions.md section 7. A cycle call runs one cycle on the input presented, the host
observes every cell, a launch leaves the inputs free (log entries 6, 7). -/
def Obligations.HostSeesCyclesAndCells : Prop :=
  (∀ (input : CycleInput) (s t : State), s.fault = none → step (present input s) = .next t →
    cycleCall input s = .returned t ∧ t.keys = input.keys ∧ t.rnd = input.rnd ∧ t.keyPick = input.keyPick ∧
      t.pending = s.pending) ∧
  (∀ (input : CycleInput) (s : State) (f : Fault), s.fault = none → step (present input s) = .fault f →
    ∃ t, cycleCall input s = .faulted f t) ∧
  (∀ s : State, (observe s).cells.length = 2048 ∧ (observe s).redraw = s.redraw ∧
    ∀ (row : Fin 32) (col : Fin 64), (observe s).cells[row.val * 64 + col.val]? = some (s.cell row col)) ∧
  ∀ (program : List Byte) (inputs : List CycleInput), program.length ≤ 3584 →
    loadProgram program { State.reset with pending := inputs } = .ok (launch program inputs)
end

