-- ==== Sys2Proof/Laws/Memory.lean ====
section
/-! SUPPORT. The laws of memory: a read after a write, and that every write keeps the canonical form. -/
namespace Sys2Proof.Machine

/-- Memory at reset is in the canonical form. -/
theorem reset_mem_wf : State.reset.mem.wf = true := rfl

/-- A canonical memory reads as after reset below its first address. -/
theorem readByte_of_lt {m : Memory} {low a : Nat} (h : wfFrom low m = true) (ha : a < low) :
    readByte m a = resetByte a := by
  induction m generalizing low with
  | nil => rfl
  | cons c m ih =>
    obtain ⟨a', b'⟩ := c
    simp only [wfFrom, Bool.and_eq_true, decide_eq_true_eq] at h
    rw [readByte, if_neg (by omega)]
    exact ih h.2 (by omega)

theorem wfFrom_mono {m : Memory} {low low' : Nat} (h : wfFrom low m = true) (hl : low' ≤ low) :
    wfFrom low' m = true := by
  cases m with
  | nil => rfl
  | cons c m =>
    simp only [wfFrom, Bool.and_eq_true, decide_eq_true_eq] at h ⊢
    exact ⟨⟨by omega, h.1.2⟩, h.2⟩

theorem wfFrom_consByte {m : Memory} {low a : Nat} {b : Byte} (h : wfFrom (a + 1) m = true) (hl : low ≤ a) :
    wfFrom low (consByte a b m) = true := by
  unfold consByte
  split
  · exact wfFrom_mono h (by omega)
  · simp_all [wfFrom]

/-- What a read sees behind `consByte`. -/
theorem readByte_consByte {m : Memory} {a c : Nat} {b : Byte} (h : wfFrom (a + 1) m = true) :
    readByte (consByte a b m) c = if c = a then b else readByte m c := by
  unfold consByte
  split
  next hb =>
    split
    next hc => rw [hc, readByte_of_lt h (by omega), hb]
    next => rfl
  next => rfl

/-- Every byte write keeps the canonical form. -/
theorem wfFrom_writeByte {m : Memory} {low a : Nat} {b : Byte} (h : wfFrom low m = true) (hl : low ≤ a) :
    wfFrom low (writeByte m a b) = true := by
  induction m generalizing low with
  | nil => exact wfFrom_consByte rfl hl
  | cons c m ih =>
    obtain ⟨a', b'⟩ := c
    have h' := h
    simp only [wfFrom, Bool.and_eq_true, decide_eq_true_eq] at h'
    unfold writeByte
    split
    next hlt =>
      refine wfFrom_consByte ?_ hl
      simp only [wfFrom, Bool.and_eq_true, decide_eq_true_eq]
      exact ⟨⟨by omega, h'.1.2⟩, h'.2⟩
    next hlt =>
      split
      next heq => subst heq; exact wfFrom_consByte h'.2 hl
      next hne =>
        simp only [wfFrom, Bool.and_eq_true, decide_eq_true_eq]
        exact ⟨h'.1, ih h'.2 (by omega)⟩

/-- A read after a byte write: the byte written at its address, every other byte as before. -/
theorem readByte_writeByte {m : Memory} {low a c : Nat} {b : Byte} (h : wfFrom low m = true) :
    readByte (writeByte m a b) c = if c = a then b else readByte m c := by
  induction m generalizing low with
  | nil => exact readByte_consByte rfl
  | cons d m ih =>
    obtain ⟨a', b'⟩ := d
    have h' := h
    simp only [wfFrom, Bool.and_eq_true, decide_eq_true_eq] at h'
    unfold writeByte
    split
    next hlt =>
      refine readByte_consByte ?_
      simp only [wfFrom, Bool.and_eq_true, decide_eq_true_eq]
      exact ⟨⟨by omega, h'.1.2⟩, h'.2⟩
    next hlt =>
      split
      next heq =>
        subst heq
        rw [readByte_consByte h'.2]
        split <;> simp_all [readByte]
      next hne =>
        simp only [readByte, ih h'.2]
        split <;> split <;> simp_all

/-- A byte write lists no address but its own beside those listed before. -/
theorem mem_writeByte {m : Memory} {a : Nat} {b : Byte} {c : Host.Cell} (h : c ∈ writeByte m a b) :
    c.1 = a ∨ c ∈ m := by
  have hcons : ∀ m' : Memory, c ∈ consByte a b m' → c.1 = a ∨ c ∈ m' := by
    intro m' hm
    unfold consByte at hm
    split at hm
    · exact .inr hm
    · rcases List.mem_cons.1 hm with rfl | hm
      · exact .inl rfl
      · exact .inr hm
  induction m with
  | nil => exact hcons _ h
  | cons d m ih =>
    obtain ⟨a', b'⟩ := d
    unfold writeByte at h
    split at h
    next => exact hcons _ h
    next =>
      split at h
      next => exact (hcons _ h).imp_right (List.mem_cons_of_mem _)
      next =>
        rcases List.mem_cons.1 h with rfl | h
        · exact .inr (List.mem_cons_self ..)
        · exact (ih h).imp_right (List.mem_cons_of_mem _)

/-- Every write of several bytes keeps the canonical form. -/
theorem wf_writeBytes {m : Memory} {a : Nat} {bs : List Byte} (h : m.wf = true) :
    Memory.wf (writeBytes m a bs) = true := by
  induction bs generalizing m a with
  | nil => exact h
  | cons b bs ih => exact ih (wfFrom_writeByte h (Nat.zero_le _))

/-- A read after a write of several bytes: the byte written where one was, every other byte as before. -/
theorem readByte_writeBytes {m : Memory} {a c : Nat} {bs : List Byte} (h : m.wf = true) :
    readByte (writeBytes m a bs) c =
      if hc : a ≤ c ∧ c < a + bs.length then bs[c - a]'(by omega) else readByte m c := by
  induction bs generalizing m a with
  | nil => simp [writeBytes]
  | cons b bs ih =>
    rw [writeBytes, ih (wfFrom_writeByte h (Nat.zero_le _)), readByte_writeByte h]
    by_cases hc : c = a
    · subst hc
      simp
    · by_cases hin : a + 1 ≤ c ∧ c < a + 1 + bs.length
      · have he : c - a = (c - (a + 1)) + 1 := by omega
        rw [dif_pos hin, dif_pos (by simp only [List.length_cons]; omega)]
        simp [he]
      · rw [dif_neg hin, if_neg hc, dif_neg (by simp only [List.length_cons]; omega)]

/-- A write of several bytes lists no address but its own beside those listed before. -/
theorem mem_writeBytes {m : Memory} {a : Nat} {bs : List Byte} {c : Host.Cell} (h : c ∈ writeBytes m a bs) :
    (a ≤ c.1 ∧ c.1 < a + bs.length) ∨ c ∈ m := by
  induction bs generalizing m a with
  | nil => exact .inr h
  | cons b bs ih =>
    rcases ih h with h | h
    · exact .inl (by simp only [List.length_cons]; omega)
    · exact (mem_writeByte h).imp_left fun h => by simp only [List.length_cons]; omega

@[simp] theorem length_readBytes (m : Memory) (a count : Nat) : (readBytes m a count).length = count := by
  induction count generalizing a with
  | zero => rfl
  | succ n ih => simp [readBytes, ih]

@[simp] theorem getElem_readBytes (m : Memory) (a count k : Nat) (h : k < (readBytes m a count).length) :
    (readBytes m a count)[k] = readByte m (a + k) := by
  induction count generalizing a k with
  | zero => simp at h
  | succ n ih =>
    cases k with
    | zero => rfl
    | succ k =>
      simp only [readBytes, List.getElem_cons_succ, ih]
      congr 1
      omega

end Sys2Proof.Machine
end

