-- ==== Sys2Proof/Laws/State.lean ====
section
/-! SUPPORT. What each update of the state leaves in each field, and what each reader sees after it: one lemma per field
per update, so that no proof unfolds a record update. -/
namespace Sys2Proof.Machine

variable (s : State)

/-! ### setV -/

@[simp] theorem State.setV_v (r : Reg) (b : Byte) : (s.setV r b).v = s.v.set r b := rfl
@[simp] theorem State.setV_i (r : Reg) (b : Byte) : (s.setV r b).i = s.i := rfl
@[simp] theorem State.setV_pc (r : Reg) (b : Byte) : (s.setV r b).pc = s.pc := rfl
@[simp] theorem State.setV_sp (r : Reg) (b : Byte) : (s.setV r b).sp = s.sp := rfl
@[simp] theorem State.setV_stack (r : Reg) (b : Byte) : (s.setV r b).stack = s.stack := rfl
@[simp] theorem State.setV_dt (r : Reg) (b : Byte) : (s.setV r b).dt = s.dt := rfl
@[simp] theorem State.setV_st (r : Reg) (b : Byte) : (s.setV r b).st = s.st := rfl
@[simp] theorem State.setV_mem (r : Reg) (b : Byte) : (s.setV r b).mem = s.mem := rfl
@[simp] theorem State.setV_fb (r : Reg) (b : Byte) : (s.setV r b).fb = s.fb := rfl
@[simp] theorem State.setV_redraw (r : Reg) (b : Byte) : (s.setV r b).redraw = s.redraw := rfl
@[simp] theorem State.setV_keys (r : Reg) (b : Byte) : (s.setV r b).keys = s.keys := rfl
@[simp] theorem State.setV_fault (r : Reg) (b : Byte) : (s.setV r b).fault = s.fault := rfl
@[simp] theorem State.setV_rnd (r : Reg) (b : Byte) : (s.setV r b).rnd = s.rnd := rfl
@[simp] theorem State.setV_keyPick (r : Reg) (b : Byte) : (s.setV r b).keyPick = s.keyPick := rfl
@[simp] theorem State.setV_pending (r : Reg) (b : Byte) : (s.setV r b).pending = s.pending := rfl
@[simp] theorem State.setV_cycle (r : Reg) (b : Byte) : (s.setV r b).cycle = s.cycle := rfl
@[simp] theorem State.setV_out (r : Reg) (b : Byte) : (s.setV r b).out = s.out := rfl
@[simp] theorem State.getSlot_setV (r : Reg) (b : Byte) (q : Fin 16) : (s.setV r b).getSlot q = s.getSlot q := rfl
@[simp] theorem State.byteAt_setV (r : Reg) (b : Byte) (a : Nat) : (s.setV r b).byteAt a = s.byteAt a := rfl
@[simp] theorem State.cell_setV (r : Reg) (b : Byte) (row : Fin 32) (col : Fin 64) : (s.setV r b).cell row col = s.cell row col := rfl
@[simp] theorem State.keyDown_setV (r : Reg) (b : Byte) (q : Reg) : (s.setV r b).keyDown q = s.keyDown q := rfl

/-! ### setI -/

@[simp] theorem State.setI_v (w : Word) : (s.setI w).v = s.v := rfl
@[simp] theorem State.setI_i (w : Word) : (s.setI w).i = w := rfl
@[simp] theorem State.setI_pc (w : Word) : (s.setI w).pc = s.pc := rfl
@[simp] theorem State.setI_sp (w : Word) : (s.setI w).sp = s.sp := rfl
@[simp] theorem State.setI_stack (w : Word) : (s.setI w).stack = s.stack := rfl
@[simp] theorem State.setI_dt (w : Word) : (s.setI w).dt = s.dt := rfl
@[simp] theorem State.setI_st (w : Word) : (s.setI w).st = s.st := rfl
@[simp] theorem State.setI_mem (w : Word) : (s.setI w).mem = s.mem := rfl
@[simp] theorem State.setI_fb (w : Word) : (s.setI w).fb = s.fb := rfl
@[simp] theorem State.setI_redraw (w : Word) : (s.setI w).redraw = s.redraw := rfl
@[simp] theorem State.setI_keys (w : Word) : (s.setI w).keys = s.keys := rfl
@[simp] theorem State.setI_fault (w : Word) : (s.setI w).fault = s.fault := rfl
@[simp] theorem State.setI_rnd (w : Word) : (s.setI w).rnd = s.rnd := rfl
@[simp] theorem State.setI_keyPick (w : Word) : (s.setI w).keyPick = s.keyPick := rfl
@[simp] theorem State.setI_pending (w : Word) : (s.setI w).pending = s.pending := rfl
@[simp] theorem State.setI_cycle (w : Word) : (s.setI w).cycle = s.cycle := rfl
@[simp] theorem State.setI_out (w : Word) : (s.setI w).out = s.out := rfl
@[simp] theorem State.getV_setI (w : Word) (q : Reg) : (s.setI w).getV q = s.getV q := rfl
@[simp] theorem State.getSlot_setI (w : Word) (q : Fin 16) : (s.setI w).getSlot q = s.getSlot q := rfl
@[simp] theorem State.byteAt_setI (w : Word) (a : Nat) : (s.setI w).byteAt a = s.byteAt a := rfl
@[simp] theorem State.cell_setI (w : Word) (row : Fin 32) (col : Fin 64) : (s.setI w).cell row col = s.cell row col := rfl
@[simp] theorem State.keyDown_setI (w : Word) (q : Reg) : (s.setI w).keyDown q = s.keyDown q := rfl

/-! ### setPc -/

@[simp] theorem State.setPc_v (w : Word) : (s.setPc w).v = s.v := rfl
@[simp] theorem State.setPc_i (w : Word) : (s.setPc w).i = s.i := rfl
@[simp] theorem State.setPc_pc (w : Word) : (s.setPc w).pc = w := rfl
@[simp] theorem State.setPc_sp (w : Word) : (s.setPc w).sp = s.sp := rfl
@[simp] theorem State.setPc_stack (w : Word) : (s.setPc w).stack = s.stack := rfl
@[simp] theorem State.setPc_dt (w : Word) : (s.setPc w).dt = s.dt := rfl
@[simp] theorem State.setPc_st (w : Word) : (s.setPc w).st = s.st := rfl
@[simp] theorem State.setPc_mem (w : Word) : (s.setPc w).mem = s.mem := rfl
@[simp] theorem State.setPc_fb (w : Word) : (s.setPc w).fb = s.fb := rfl
@[simp] theorem State.setPc_redraw (w : Word) : (s.setPc w).redraw = s.redraw := rfl
@[simp] theorem State.setPc_keys (w : Word) : (s.setPc w).keys = s.keys := rfl
@[simp] theorem State.setPc_fault (w : Word) : (s.setPc w).fault = s.fault := rfl
@[simp] theorem State.setPc_rnd (w : Word) : (s.setPc w).rnd = s.rnd := rfl
@[simp] theorem State.setPc_keyPick (w : Word) : (s.setPc w).keyPick = s.keyPick := rfl
@[simp] theorem State.setPc_pending (w : Word) : (s.setPc w).pending = s.pending := rfl
@[simp] theorem State.setPc_cycle (w : Word) : (s.setPc w).cycle = s.cycle := rfl
@[simp] theorem State.setPc_out (w : Word) : (s.setPc w).out = s.out := rfl
@[simp] theorem State.getV_setPc (w : Word) (q : Reg) : (s.setPc w).getV q = s.getV q := rfl
@[simp] theorem State.getSlot_setPc (w : Word) (q : Fin 16) : (s.setPc w).getSlot q = s.getSlot q := rfl
@[simp] theorem State.byteAt_setPc (w : Word) (a : Nat) : (s.setPc w).byteAt a = s.byteAt a := rfl
@[simp] theorem State.cell_setPc (w : Word) (row : Fin 32) (col : Fin 64) : (s.setPc w).cell row col = s.cell row col := rfl
@[simp] theorem State.keyDown_setPc (w : Word) (q : Reg) : (s.setPc w).keyDown q = s.keyDown q := rfl

/-! ### setSp -/

@[simp] theorem State.setSp_v (k : Fin 16) : (s.setSp k).v = s.v := rfl
@[simp] theorem State.setSp_i (k : Fin 16) : (s.setSp k).i = s.i := rfl
@[simp] theorem State.setSp_pc (k : Fin 16) : (s.setSp k).pc = s.pc := rfl
@[simp] theorem State.setSp_sp (k : Fin 16) : (s.setSp k).sp = k := rfl
@[simp] theorem State.setSp_stack (k : Fin 16) : (s.setSp k).stack = s.stack := rfl
@[simp] theorem State.setSp_dt (k : Fin 16) : (s.setSp k).dt = s.dt := rfl
@[simp] theorem State.setSp_st (k : Fin 16) : (s.setSp k).st = s.st := rfl
@[simp] theorem State.setSp_mem (k : Fin 16) : (s.setSp k).mem = s.mem := rfl
@[simp] theorem State.setSp_fb (k : Fin 16) : (s.setSp k).fb = s.fb := rfl
@[simp] theorem State.setSp_redraw (k : Fin 16) : (s.setSp k).redraw = s.redraw := rfl
@[simp] theorem State.setSp_keys (k : Fin 16) : (s.setSp k).keys = s.keys := rfl
@[simp] theorem State.setSp_fault (k : Fin 16) : (s.setSp k).fault = s.fault := rfl
@[simp] theorem State.setSp_rnd (k : Fin 16) : (s.setSp k).rnd = s.rnd := rfl
@[simp] theorem State.setSp_keyPick (k : Fin 16) : (s.setSp k).keyPick = s.keyPick := rfl
@[simp] theorem State.setSp_pending (k : Fin 16) : (s.setSp k).pending = s.pending := rfl
@[simp] theorem State.setSp_cycle (k : Fin 16) : (s.setSp k).cycle = s.cycle := rfl
@[simp] theorem State.setSp_out (k : Fin 16) : (s.setSp k).out = s.out := rfl
@[simp] theorem State.getV_setSp (k : Fin 16) (q : Reg) : (s.setSp k).getV q = s.getV q := rfl
@[simp] theorem State.getSlot_setSp (k : Fin 16) (q : Fin 16) : (s.setSp k).getSlot q = s.getSlot q := rfl
@[simp] theorem State.byteAt_setSp (k : Fin 16) (a : Nat) : (s.setSp k).byteAt a = s.byteAt a := rfl
@[simp] theorem State.cell_setSp (k : Fin 16) (row : Fin 32) (col : Fin 64) : (s.setSp k).cell row col = s.cell row col := rfl
@[simp] theorem State.keyDown_setSp (k : Fin 16) (q : Reg) : (s.setSp k).keyDown q = s.keyDown q := rfl

/-! ### setSlot -/

@[simp] theorem State.setSlot_v (k : Fin 16) (w : Word) : (s.setSlot k w).v = s.v := rfl
@[simp] theorem State.setSlot_i (k : Fin 16) (w : Word) : (s.setSlot k w).i = s.i := rfl
@[simp] theorem State.setSlot_pc (k : Fin 16) (w : Word) : (s.setSlot k w).pc = s.pc := rfl
@[simp] theorem State.setSlot_sp (k : Fin 16) (w : Word) : (s.setSlot k w).sp = s.sp := rfl
@[simp] theorem State.setSlot_stack (k : Fin 16) (w : Word) : (s.setSlot k w).stack = s.stack.set k w := rfl
@[simp] theorem State.setSlot_dt (k : Fin 16) (w : Word) : (s.setSlot k w).dt = s.dt := rfl
@[simp] theorem State.setSlot_st (k : Fin 16) (w : Word) : (s.setSlot k w).st = s.st := rfl
@[simp] theorem State.setSlot_mem (k : Fin 16) (w : Word) : (s.setSlot k w).mem = s.mem := rfl
@[simp] theorem State.setSlot_fb (k : Fin 16) (w : Word) : (s.setSlot k w).fb = s.fb := rfl
@[simp] theorem State.setSlot_redraw (k : Fin 16) (w : Word) : (s.setSlot k w).redraw = s.redraw := rfl
@[simp] theorem State.setSlot_keys (k : Fin 16) (w : Word) : (s.setSlot k w).keys = s.keys := rfl
@[simp] theorem State.setSlot_fault (k : Fin 16) (w : Word) : (s.setSlot k w).fault = s.fault := rfl
@[simp] theorem State.setSlot_rnd (k : Fin 16) (w : Word) : (s.setSlot k w).rnd = s.rnd := rfl
@[simp] theorem State.setSlot_keyPick (k : Fin 16) (w : Word) : (s.setSlot k w).keyPick = s.keyPick := rfl
@[simp] theorem State.setSlot_pending (k : Fin 16) (w : Word) : (s.setSlot k w).pending = s.pending := rfl
@[simp] theorem State.setSlot_cycle (k : Fin 16) (w : Word) : (s.setSlot k w).cycle = s.cycle := rfl
@[simp] theorem State.setSlot_out (k : Fin 16) (w : Word) : (s.setSlot k w).out = s.out := rfl
@[simp] theorem State.getV_setSlot (k : Fin 16) (w : Word) (q : Reg) : (s.setSlot k w).getV q = s.getV q := rfl
@[simp] theorem State.byteAt_setSlot (k : Fin 16) (w : Word) (a : Nat) : (s.setSlot k w).byteAt a = s.byteAt a := rfl
@[simp] theorem State.cell_setSlot (k : Fin 16) (w : Word) (row : Fin 32) (col : Fin 64) : (s.setSlot k w).cell row col = s.cell row col := rfl
@[simp] theorem State.keyDown_setSlot (k : Fin 16) (w : Word) (q : Reg) : (s.setSlot k w).keyDown q = s.keyDown q := rfl

/-! ### setDt -/

@[simp] theorem State.setDt_v (b : Byte) : (s.setDt b).v = s.v := rfl
@[simp] theorem State.setDt_i (b : Byte) : (s.setDt b).i = s.i := rfl
@[simp] theorem State.setDt_pc (b : Byte) : (s.setDt b).pc = s.pc := rfl
@[simp] theorem State.setDt_sp (b : Byte) : (s.setDt b).sp = s.sp := rfl
@[simp] theorem State.setDt_stack (b : Byte) : (s.setDt b).stack = s.stack := rfl
@[simp] theorem State.setDt_dt (b : Byte) : (s.setDt b).dt = b := rfl
@[simp] theorem State.setDt_st (b : Byte) : (s.setDt b).st = s.st := rfl
@[simp] theorem State.setDt_mem (b : Byte) : (s.setDt b).mem = s.mem := rfl
@[simp] theorem State.setDt_fb (b : Byte) : (s.setDt b).fb = s.fb := rfl
@[simp] theorem State.setDt_redraw (b : Byte) : (s.setDt b).redraw = s.redraw := rfl
@[simp] theorem State.setDt_keys (b : Byte) : (s.setDt b).keys = s.keys := rfl
@[simp] theorem State.setDt_fault (b : Byte) : (s.setDt b).fault = s.fault := rfl
@[simp] theorem State.setDt_rnd (b : Byte) : (s.setDt b).rnd = s.rnd := rfl
@[simp] theorem State.setDt_keyPick (b : Byte) : (s.setDt b).keyPick = s.keyPick := rfl
@[simp] theorem State.setDt_pending (b : Byte) : (s.setDt b).pending = s.pending := rfl
@[simp] theorem State.setDt_cycle (b : Byte) : (s.setDt b).cycle = s.cycle := rfl
@[simp] theorem State.setDt_out (b : Byte) : (s.setDt b).out = s.out := rfl
@[simp] theorem State.getV_setDt (b : Byte) (q : Reg) : (s.setDt b).getV q = s.getV q := rfl
@[simp] theorem State.getSlot_setDt (b : Byte) (q : Fin 16) : (s.setDt b).getSlot q = s.getSlot q := rfl
@[simp] theorem State.byteAt_setDt (b : Byte) (a : Nat) : (s.setDt b).byteAt a = s.byteAt a := rfl
@[simp] theorem State.cell_setDt (b : Byte) (row : Fin 32) (col : Fin 64) : (s.setDt b).cell row col = s.cell row col := rfl
@[simp] theorem State.keyDown_setDt (b : Byte) (q : Reg) : (s.setDt b).keyDown q = s.keyDown q := rfl

/-! ### setSt -/

@[simp] theorem State.setSt_v (b : Byte) : (s.setSt b).v = s.v := rfl
@[simp] theorem State.setSt_i (b : Byte) : (s.setSt b).i = s.i := rfl
@[simp] theorem State.setSt_pc (b : Byte) : (s.setSt b).pc = s.pc := rfl
@[simp] theorem State.setSt_sp (b : Byte) : (s.setSt b).sp = s.sp := rfl
@[simp] theorem State.setSt_stack (b : Byte) : (s.setSt b).stack = s.stack := rfl
@[simp] theorem State.setSt_dt (b : Byte) : (s.setSt b).dt = s.dt := rfl
@[simp] theorem State.setSt_st (b : Byte) : (s.setSt b).st = b := rfl
@[simp] theorem State.setSt_mem (b : Byte) : (s.setSt b).mem = s.mem := rfl
@[simp] theorem State.setSt_fb (b : Byte) : (s.setSt b).fb = s.fb := rfl
@[simp] theorem State.setSt_redraw (b : Byte) : (s.setSt b).redraw = s.redraw := rfl
@[simp] theorem State.setSt_keys (b : Byte) : (s.setSt b).keys = s.keys := rfl
@[simp] theorem State.setSt_fault (b : Byte) : (s.setSt b).fault = s.fault := rfl
@[simp] theorem State.setSt_rnd (b : Byte) : (s.setSt b).rnd = s.rnd := rfl
@[simp] theorem State.setSt_keyPick (b : Byte) : (s.setSt b).keyPick = s.keyPick := rfl
@[simp] theorem State.setSt_pending (b : Byte) : (s.setSt b).pending = s.pending := rfl
@[simp] theorem State.setSt_cycle (b : Byte) : (s.setSt b).cycle = s.cycle := rfl
@[simp] theorem State.setSt_out (b : Byte) : (s.setSt b).out = s.out := rfl
@[simp] theorem State.getV_setSt (b : Byte) (q : Reg) : (s.setSt b).getV q = s.getV q := rfl
@[simp] theorem State.getSlot_setSt (b : Byte) (q : Fin 16) : (s.setSt b).getSlot q = s.getSlot q := rfl
@[simp] theorem State.byteAt_setSt (b : Byte) (a : Nat) : (s.setSt b).byteAt a = s.byteAt a := rfl
@[simp] theorem State.cell_setSt (b : Byte) (row : Fin 32) (col : Fin 64) : (s.setSt b).cell row col = s.cell row col := rfl
@[simp] theorem State.keyDown_setSt (b : Byte) (q : Reg) : (s.setSt b).keyDown q = s.keyDown q := rfl

/-! ### setMem -/

@[simp] theorem State.setMem_v (m : Memory) : (s.setMem m).v = s.v := rfl
@[simp] theorem State.setMem_i (m : Memory) : (s.setMem m).i = s.i := rfl
@[simp] theorem State.setMem_pc (m : Memory) : (s.setMem m).pc = s.pc := rfl
@[simp] theorem State.setMem_sp (m : Memory) : (s.setMem m).sp = s.sp := rfl
@[simp] theorem State.setMem_stack (m : Memory) : (s.setMem m).stack = s.stack := rfl
@[simp] theorem State.setMem_dt (m : Memory) : (s.setMem m).dt = s.dt := rfl
@[simp] theorem State.setMem_st (m : Memory) : (s.setMem m).st = s.st := rfl
@[simp] theorem State.setMem_mem (m : Memory) : (s.setMem m).mem = m := rfl
@[simp] theorem State.setMem_fb (m : Memory) : (s.setMem m).fb = s.fb := rfl
@[simp] theorem State.setMem_redraw (m : Memory) : (s.setMem m).redraw = s.redraw := rfl
@[simp] theorem State.setMem_keys (m : Memory) : (s.setMem m).keys = s.keys := rfl
@[simp] theorem State.setMem_fault (m : Memory) : (s.setMem m).fault = s.fault := rfl
@[simp] theorem State.setMem_rnd (m : Memory) : (s.setMem m).rnd = s.rnd := rfl
@[simp] theorem State.setMem_keyPick (m : Memory) : (s.setMem m).keyPick = s.keyPick := rfl
@[simp] theorem State.setMem_pending (m : Memory) : (s.setMem m).pending = s.pending := rfl
@[simp] theorem State.setMem_cycle (m : Memory) : (s.setMem m).cycle = s.cycle := rfl
@[simp] theorem State.setMem_out (m : Memory) : (s.setMem m).out = s.out := rfl
@[simp] theorem State.getV_setMem (m : Memory) (q : Reg) : (s.setMem m).getV q = s.getV q := rfl
@[simp] theorem State.getSlot_setMem (m : Memory) (q : Fin 16) : (s.setMem m).getSlot q = s.getSlot q := rfl
@[simp] theorem State.cell_setMem (m : Memory) (row : Fin 32) (col : Fin 64) : (s.setMem m).cell row col = s.cell row col := rfl
@[simp] theorem State.keyDown_setMem (m : Memory) (q : Reg) : (s.setMem m).keyDown q = s.keyDown q := rfl

/-! ### setFb -/

@[simp] theorem State.setFb_v (f : Framebuffer) : (s.setFb f).v = s.v := rfl
@[simp] theorem State.setFb_i (f : Framebuffer) : (s.setFb f).i = s.i := rfl
@[simp] theorem State.setFb_pc (f : Framebuffer) : (s.setFb f).pc = s.pc := rfl
@[simp] theorem State.setFb_sp (f : Framebuffer) : (s.setFb f).sp = s.sp := rfl
@[simp] theorem State.setFb_stack (f : Framebuffer) : (s.setFb f).stack = s.stack := rfl
@[simp] theorem State.setFb_dt (f : Framebuffer) : (s.setFb f).dt = s.dt := rfl
@[simp] theorem State.setFb_st (f : Framebuffer) : (s.setFb f).st = s.st := rfl
@[simp] theorem State.setFb_mem (f : Framebuffer) : (s.setFb f).mem = s.mem := rfl
@[simp] theorem State.setFb_fb (f : Framebuffer) : (s.setFb f).fb = f := rfl
@[simp] theorem State.setFb_redraw (f : Framebuffer) : (s.setFb f).redraw = s.redraw := rfl
@[simp] theorem State.setFb_keys (f : Framebuffer) : (s.setFb f).keys = s.keys := rfl
@[simp] theorem State.setFb_fault (f : Framebuffer) : (s.setFb f).fault = s.fault := rfl
@[simp] theorem State.setFb_rnd (f : Framebuffer) : (s.setFb f).rnd = s.rnd := rfl
@[simp] theorem State.setFb_keyPick (f : Framebuffer) : (s.setFb f).keyPick = s.keyPick := rfl
@[simp] theorem State.setFb_pending (f : Framebuffer) : (s.setFb f).pending = s.pending := rfl
@[simp] theorem State.setFb_cycle (f : Framebuffer) : (s.setFb f).cycle = s.cycle := rfl
@[simp] theorem State.setFb_out (f : Framebuffer) : (s.setFb f).out = s.out := rfl
@[simp] theorem State.getV_setFb (f : Framebuffer) (q : Reg) : (s.setFb f).getV q = s.getV q := rfl
@[simp] theorem State.getSlot_setFb (f : Framebuffer) (q : Fin 16) : (s.setFb f).getSlot q = s.getSlot q := rfl
@[simp] theorem State.byteAt_setFb (f : Framebuffer) (a : Nat) : (s.setFb f).byteAt a = s.byteAt a := rfl
@[simp] theorem State.keyDown_setFb (f : Framebuffer) (q : Reg) : (s.setFb f).keyDown q = s.keyDown q := rfl

/-! ### setRedraw -/

@[simp] theorem State.setRedraw_v (b : Bool) : (s.setRedraw b).v = s.v := rfl
@[simp] theorem State.setRedraw_i (b : Bool) : (s.setRedraw b).i = s.i := rfl
@[simp] theorem State.setRedraw_pc (b : Bool) : (s.setRedraw b).pc = s.pc := rfl
@[simp] theorem State.setRedraw_sp (b : Bool) : (s.setRedraw b).sp = s.sp := rfl
@[simp] theorem State.setRedraw_stack (b : Bool) : (s.setRedraw b).stack = s.stack := rfl
@[simp] theorem State.setRedraw_dt (b : Bool) : (s.setRedraw b).dt = s.dt := rfl
@[simp] theorem State.setRedraw_st (b : Bool) : (s.setRedraw b).st = s.st := rfl
@[simp] theorem State.setRedraw_mem (b : Bool) : (s.setRedraw b).mem = s.mem := rfl
@[simp] theorem State.setRedraw_fb (b : Bool) : (s.setRedraw b).fb = s.fb := rfl
@[simp] theorem State.setRedraw_redraw (b : Bool) : (s.setRedraw b).redraw = b := rfl
@[simp] theorem State.setRedraw_keys (b : Bool) : (s.setRedraw b).keys = s.keys := rfl
@[simp] theorem State.setRedraw_fault (b : Bool) : (s.setRedraw b).fault = s.fault := rfl
@[simp] theorem State.setRedraw_rnd (b : Bool) : (s.setRedraw b).rnd = s.rnd := rfl
@[simp] theorem State.setRedraw_keyPick (b : Bool) : (s.setRedraw b).keyPick = s.keyPick := rfl
@[simp] theorem State.setRedraw_pending (b : Bool) : (s.setRedraw b).pending = s.pending := rfl
@[simp] theorem State.setRedraw_cycle (b : Bool) : (s.setRedraw b).cycle = s.cycle := rfl
@[simp] theorem State.setRedraw_out (b : Bool) : (s.setRedraw b).out = s.out := rfl
@[simp] theorem State.getV_setRedraw (b : Bool) (q : Reg) : (s.setRedraw b).getV q = s.getV q := rfl
@[simp] theorem State.getSlot_setRedraw (b : Bool) (q : Fin 16) : (s.setRedraw b).getSlot q = s.getSlot q := rfl
@[simp] theorem State.byteAt_setRedraw (b : Bool) (a : Nat) : (s.setRedraw b).byteAt a = s.byteAt a := rfl
@[simp] theorem State.cell_setRedraw (b : Bool) (row : Fin 32) (col : Fin 64) : (s.setRedraw b).cell row col = s.cell row col := rfl
@[simp] theorem State.keyDown_setRedraw (b : Bool) (q : Reg) : (s.setRedraw b).keyDown q = s.keyDown q := rfl

/-! ### setOut -/

@[simp] theorem State.setOut_v (o : CycleOutput) : (s.setOut o).v = s.v := rfl
@[simp] theorem State.setOut_i (o : CycleOutput) : (s.setOut o).i = s.i := rfl
@[simp] theorem State.setOut_pc (o : CycleOutput) : (s.setOut o).pc = s.pc := rfl
@[simp] theorem State.setOut_sp (o : CycleOutput) : (s.setOut o).sp = s.sp := rfl
@[simp] theorem State.setOut_stack (o : CycleOutput) : (s.setOut o).stack = s.stack := rfl
@[simp] theorem State.setOut_dt (o : CycleOutput) : (s.setOut o).dt = s.dt := rfl
@[simp] theorem State.setOut_st (o : CycleOutput) : (s.setOut o).st = s.st := rfl
@[simp] theorem State.setOut_mem (o : CycleOutput) : (s.setOut o).mem = s.mem := rfl
@[simp] theorem State.setOut_fb (o : CycleOutput) : (s.setOut o).fb = s.fb := rfl
@[simp] theorem State.setOut_redraw (o : CycleOutput) : (s.setOut o).redraw = s.redraw := rfl
@[simp] theorem State.setOut_keys (o : CycleOutput) : (s.setOut o).keys = s.keys := rfl
@[simp] theorem State.setOut_fault (o : CycleOutput) : (s.setOut o).fault = s.fault := rfl
@[simp] theorem State.setOut_rnd (o : CycleOutput) : (s.setOut o).rnd = s.rnd := rfl
@[simp] theorem State.setOut_keyPick (o : CycleOutput) : (s.setOut o).keyPick = s.keyPick := rfl
@[simp] theorem State.setOut_pending (o : CycleOutput) : (s.setOut o).pending = s.pending := rfl
@[simp] theorem State.setOut_cycle (o : CycleOutput) : (s.setOut o).cycle = s.cycle := rfl
@[simp] theorem State.setOut_out (o : CycleOutput) : (s.setOut o).out = o := rfl
@[simp] theorem State.getV_setOut (o : CycleOutput) (q : Reg) : (s.setOut o).getV q = s.getV q := rfl
@[simp] theorem State.getSlot_setOut (o : CycleOutput) (q : Fin 16) : (s.setOut o).getSlot q = s.getSlot q := rfl
@[simp] theorem State.byteAt_setOut (o : CycleOutput) (a : Nat) : (s.setOut o).byteAt a = s.byteAt a := rfl
@[simp] theorem State.cell_setOut (o : CycleOutput) (row : Fin 32) (col : Fin 64) : (s.setOut o).cell row col = s.cell row col := rfl
@[simp] theorem State.keyDown_setOut (o : CycleOutput) (q : Reg) : (s.setOut o).keyDown q = s.keyDown q := rfl

/-! ### recordFault -/

@[simp] theorem recordFault_v (f : Fault) : (recordFault f s).v = s.v := rfl
@[simp] theorem recordFault_i (f : Fault) : (recordFault f s).i = s.i := rfl
@[simp] theorem recordFault_pc (f : Fault) : (recordFault f s).pc = s.pc := rfl
@[simp] theorem recordFault_sp (f : Fault) : (recordFault f s).sp = s.sp := rfl
@[simp] theorem recordFault_stack (f : Fault) : (recordFault f s).stack = s.stack := rfl
@[simp] theorem recordFault_dt (f : Fault) : (recordFault f s).dt = s.dt := rfl
@[simp] theorem recordFault_st (f : Fault) : (recordFault f s).st = s.st := rfl
@[simp] theorem recordFault_mem (f : Fault) : (recordFault f s).mem = s.mem := rfl
@[simp] theorem recordFault_fb (f : Fault) : (recordFault f s).fb = s.fb := rfl
@[simp] theorem recordFault_redraw (f : Fault) : (recordFault f s).redraw = s.redraw := rfl
@[simp] theorem recordFault_keys (f : Fault) : (recordFault f s).keys = s.keys := rfl
@[simp] theorem recordFault_fault (f : Fault) : (recordFault f s).fault = some f := rfl
@[simp] theorem recordFault_rnd (f : Fault) : (recordFault f s).rnd = s.rnd := rfl
@[simp] theorem recordFault_keyPick (f : Fault) : (recordFault f s).keyPick = s.keyPick := rfl
@[simp] theorem recordFault_pending (f : Fault) : (recordFault f s).pending = s.pending := rfl
@[simp] theorem recordFault_cycle (f : Fault) : (recordFault f s).cycle = s.cycle := rfl
@[simp] theorem recordFault_out (f : Fault) : (recordFault f s).out = { status := .faulted f, beep := false, diag := none } := rfl
@[simp] theorem State.getV_recordFault (f : Fault) (q : Reg) : (recordFault f s).getV q = s.getV q := rfl
@[simp] theorem State.getSlot_recordFault (f : Fault) (q : Fin 16) : (recordFault f s).getSlot q = s.getSlot q := rfl
@[simp] theorem State.byteAt_recordFault (f : Fault) (a : Nat) : (recordFault f s).byteAt a = s.byteAt a := rfl
@[simp] theorem State.cell_recordFault (f : Fault) (row : Fin 32) (col : Fin 64) : (recordFault f s).cell row col = s.cell row col := rfl
@[simp] theorem State.keyDown_recordFault (f : Fault) (q : Reg) : (recordFault f s).keyDown q = s.keyDown q := rfl

/-! ### Reading back what was written -/

@[simp] theorem State.getV_setV (r q : Reg) (b : Byte) : (s.setV r b).getV q = if q = r then b else s.getV q := by
  simp only [State.getV, State.setV, Fin.getElem_fin, Vector.getElem_set, Fin.ext_iff, eq_comm]

@[simp] theorem State.getSlot_setSlot (k q : Fin 16) (w : Word) :
    (s.setSlot k w).getSlot q = if q = k then w else s.getSlot q := by
  simp only [State.getSlot, State.setSlot, Fin.getElem_fin, Vector.getElem_set, Fin.ext_iff, eq_comm]

@[simp] theorem State.byteAt_setMem (m : Memory) (a : Nat) : (s.setMem m).byteAt a = readByte m a := rfl

@[simp] theorem State.cell_setFb (f : Framebuffer) (row : Fin 32) (col : Fin 64) :
    (s.setFb f).cell row col = cellOf f row col := rfl

end Sys2Proof.Machine
end

