-- ==== Sys2Proof/Laws/Ops.lean ====
section
/-! SUPPORT. For each shared operation, what it can do. -/
namespace Sys2Proof.Machine

/-- `rangeFault` finds no fault exactly when every byte of the access exists. -/
theorem rangeFault_eq_none {kind : Nat → Fault} {first count : Nat} :
    rangeFault kind first count = none ↔ count = 0 ∨ first + count ≤ 4096 := by
  unfold rangeFault
  split <;> simp <;> omega

/-- `rangeFault` finds a fault exactly when some byte of the access does not exist, and then the one at the lowest
address that does not. -/
theorem rangeFault_eq_some {kind : Nat → Fault} {first count : Nat} {f : Fault} :
    rangeFault kind first count = some f ↔
      (1 ≤ count ∧ 4096 < first + count) ∧ kind (max first 4096) = f := by
  unfold rangeFault
  split
  next h => simp only [Option.some.injEq, iff_and_self]; omega
  next h => simp only [reduceCtorEq, false_iff, not_and]; omega

theorem memRead_eq_ok {s : State} {first count : Nat} (h : count = 0 ∨ first + count ≤ 4096) :
    memRead s first count = .ok (readBytes s.mem first count) := by
  simp only [memRead, rangeFault_eq_none.2 h]

theorem memRead_eq_error {s : State} {first count : Nat} (h : 1 ≤ count ∧ 4096 < first + count) :
    memRead s first count = .error (.memReadRange (max first 4096)) := by
  simp only [memRead, rangeFault_eq_some.2 ⟨h, rfl⟩]

theorem memWrite_eq_ok {s : State} {first : Nat} {bytes : List Byte}
    (h : bytes.length = 0 ∨ first + bytes.length ≤ 4096) :
    memWrite s first bytes = .ok (s.setMem (writeBytes s.mem first bytes)) := by
  simp only [memWrite, rangeFault_eq_none.2 h]

theorem memWrite_eq_error {s : State} {first : Nat} {bytes : List Byte}
    (h : 1 ≤ bytes.length ∧ 4096 < first + bytes.length) :
    memWrite s first bytes = .error (.memWriteRange (max first 4096)) := by
  simp only [memWrite, rangeFault_eq_some.2 ⟨h, rfl⟩]

/-- What a memory read that answers has read. -/
theorem memRead_ok_iff {s : State} {first count : Nat} {bytes : List Byte} :
    memRead s first count = .ok bytes ↔
      (count = 0 ∨ first + count ≤ 4096) ∧ bytes = readBytes s.mem first count := by
  by_cases h : count = 0 ∨ first + count ≤ 4096
  · simp [memRead_eq_ok h, h, eq_comm]
  · simp [memRead_eq_error (s := s) (show 1 ≤ count ∧ 4096 < first + count by omega), h]

/-- What a memory write that answers has written. -/
theorem memWrite_ok_iff {s t : State} {first : Nat} {bytes : List Byte} :
    memWrite s first bytes = .ok t ↔
      (bytes.length = 0 ∨ first + bytes.length ≤ 4096) ∧ t = s.setMem (writeBytes s.mem first bytes) := by
  by_cases h : bytes.length = 0 ∨ first + bytes.length ≤ 4096
  · rw [memWrite_eq_ok h, Except.ok.injEq, and_iff_right h, eq_comm]
  · rw [memWrite_eq_error (by omega)]
    exact ⟨fun he => (nomatch he), fun he => absurd he.1 h⟩

/-- An operation's answer is a next state exactly when the operation gave that state. -/
theorem complete_eq_next {r : Except Fault State} {t : State} : complete r = .next t ↔ r = .ok t := by
  cases r <;> simp [complete, raise]

/-- What a push that answers has done. -/
theorem push_eq_ok {s t : State} {w : Word} :
    push s w = .ok t ↔ s.sp ≠ 15 ∧ t = (s.setSp (s.sp + 1)).setSlot (s.sp + 1) w := by
  unfold push
  split <;> simp_all [eq_comm]

theorem push_eq_error {s : State} {w : Word} {f : Fault} :
    push s w = .error f ↔ s.sp = 15 ∧ f = .stackOverflow 15 := by
  unfold push
  split <;> simp_all [eq_comm]

/-- What a pop that answers has done. -/
theorem pop_eq_ok {s t : State} {w : Word} :
    pop s = .ok (w, t) ↔ s.sp ≠ 0 ∧ w = s.getSlot s.sp ∧ t = s.setSp (s.sp - 1) := by
  unfold pop
  split <;> simp_all [eq_comm]

theorem pop_eq_error {s : State} {f : Fault} : pop s = .error f ↔ s.sp = 0 ∧ f = .stackUnderflow 0 := by
  unfold pop
  split <;> simp_all [eq_comm]

/-- A skip changes the program counter only, and that only where its condition holds. -/
theorem skipIf_eq (c : Bool) (s : State) : skipIf c s = s.setPc (if c then s.pc + 2 else s.pc) := by
  cases c <;> rfl

/-- The registers after the flag-first operations. -/
theorem getV_flagThen (f : Byte) (x q : Reg) (g : State → Byte) (s : State) :
    (flagThen f x g s).getV q = if q = x then g (s.setV regF f) else if q = regF then f else s.getV q := by
  simp [flagThen]

/-- The registers after a block of registers was loaded: those of the block hold its bytes, the others are unchanged. -/
theorem getV_setRegsFrom (s : State) (k : Nat) (bs : List Byte) (r : Reg) :
    (setRegsFrom s k bs).getV r =
      if h : k ≤ r.val ∧ r.val < k + bs.length then bs[r.val - k]'(by omega) else s.getV r := by
  induction bs generalizing s k with
  | nil => simp [setRegsFrom]
  | cons b bs ih =>
    rw [setRegsFrom, ih]
    by_cases hin : k + 1 ≤ r.val ∧ r.val < k + 1 + bs.length
    · have he : r.val - k = (r.val - (k + 1)) + 1 := by omega
      have hR : k ≤ r.val ∧ r.val < k + (b :: bs).length := by simp only [List.length_cons]; omega
      rw [dif_pos hin, dif_pos hR]
      simp [he]
    · rw [dif_neg hin]
      by_cases hk : r.val = k
      · have hk' : k < 16 := hk ▸ r.isLt
        have hR : k ≤ r.val ∧ r.val < k + (b :: bs).length := by simp only [List.length_cons]; omega
        rw [dif_pos hR, dif_pos hk', State.getV_setV, if_pos (Fin.ext hk)]
        simp [hk]
      · have hR : ¬ (k ≤ r.val ∧ r.val < k + (b :: bs).length) := by simp only [List.length_cons]; omega
        rw [dif_neg hR]
        split
        · rw [State.getV_setV, if_neg (fun h => hk (congrArg Fin.val h))]
        · rfl

/-- Loading a block of registers changes nothing but registers. -/
theorem setRegsFrom_eq (s : State) (k : Nat) (bs : List Byte) : ∃ v, setRegsFrom s k bs = { s with v := v } := by
  induction bs generalizing s k with
  | nil => exact ⟨s.v, rfl⟩
  | cons b bs ih =>
    obtain ⟨v, hv⟩ := ih (if h : k < 16 then s.setV ⟨k, h⟩ b else s) (k + 1)
    refine ⟨v, ?_⟩
    rw [setRegsFrom, hv]
    split <;> rfl

@[simp] theorem length_regsBelow (s : State) (x : Reg) : (regsBelow s x).length = x.val := by
  simp [regsBelow]

@[simp] theorem getElem_regsBelow (s : State) (x : Reg) (k : Nat) (h : k < (regsBelow s x).length) :
    (regsBelow s x)[k] = s.getV ⟨k, by rw [length_regsBelow] at h; omega⟩ := by
  simp [regsBelow, State.getV]

/-- A byte names a key exactly when it is at most 15. -/
theorem keyIndex_eq_ok {b : Byte} {k : Reg} : keyIndex b = .ok k ↔ b.toNat = k.val := by
  unfold keyIndex
  split
  · simp [Fin.ext_iff]
  · simp; omega

theorem keyIndex_eq_error {b : Byte} {f : Fault} :
    keyIndex b = .error f ↔ 15 < b.toNat ∧ f = .keyIndexRange b.toNat := by
  unfold keyIndex
  split
  · simp; omega
  · simp [eq_comm]; omega

@[simp] theorem mem_pressedKeys {s : State} {k : Reg} : k ∈ pressedKeys s ↔ s.keyDown k = true := by
  simp [pressedKeys]

/-- No choice is made exactly where there is nothing to choose. -/
theorem chooseKey_eq_none {pick : Nat} {ks : List Reg} : chooseKey pick ks = none ↔ ks = [] := by
  match ks with
  | [] => simp [chooseKey]
  | [k] => simp [chooseKey]
  | k :: l :: ks =>
    simp only [chooseKey, reduceCtorEq, iff_false, List.getElem?_eq_none_iff, List.length_cons, not_le]
    exact Nat.mod_lt _ (by omega)

/-- What is chosen is one of the keys. -/
theorem chooseKey_mem {pick : Nat} {ks : List Reg} {k : Reg} (h : chooseKey pick ks = some k) : k ∈ ks := by
  match ks with
  | [] => simp [chooseKey] at h
  | [l] => simp_all [chooseKey]
  | l :: l' :: ks => exact List.mem_of_getElem? h

/-- Every one of the keys is the choice of some draw. -/
theorem exists_chooseKey {ks : List Reg} {k : Reg} (h : k ∈ ks) : ∃ pick, chooseKey pick ks = some k := by
  obtain ⟨n, hn, rfl⟩ := List.getElem_of_mem h
  match ks with
  | [l] => exact ⟨0, by have : n = 0 := by simpa using hn
                        simp [chooseKey, this]⟩
  | l :: l' :: ks =>
    refine ⟨n, ?_⟩
    simp only [List.length_cons] at hn
    rw [chooseKey, Nat.mod_eq_of_lt (by omega)]
    exact List.getElem?_eq_getElem _

/-- One cell XORed: that cell changes by the bit, every other cell stays. -/
theorem cellOf_xorCell (f : Framebuffer) (row row' : Fin 32) (col col' : Fin 64) (bit : Bool) :
    cellOf (xorCell f row col bit) row' col' =
      if row' = row ∧ col' = col then cellOf f row' col' ^^ bit else cellOf f row' col' := by
  unfold cellOf xorCell
  by_cases hr : row' = row
  · subst hr
    simp only [Fin.getElem_fin, Vector.getElem_set_self, BitVec.getLsbD_xor, BitVec.getLsbD_shiftLeft,
      BitVec.getLsbD_setWidth, BitVec.getLsbD_ofBool, true_and]
    by_cases hc : col' = col
    · subst hc
      cases bit <;> simp
    · have hne : col'.val ≠ col.val := fun h => hc (Fin.ext h)
      rw [if_neg hc]
      by_cases hlt : col'.val < col.val
      · simp [hlt]
      · have : ¬ (col'.val - col.val = 0) := by omega
        simp [this]
  · have hne : row.val ≠ row'.val := fun h => hr (Fin.ext h.symm)
    simp [hne, hr]

/-- A cleared framebuffer has no lit cell. -/
@[simp] theorem cellOf_clearFb (row : Fin 32) (col : Fin 64) : cellOf clearFb row col = false := by
  simp [cellOf, clearFb]

end Sys2Proof.Machine
end

