-- ==== Sys2Proof/Laws/Cycle.lean ====
section
/-! SUPPORT. What a cycle can do around its instruction: the inversion of `step`, and each field after its first and its
last stages (30_encoding.md R60). -/
namespace Sys2Proof.Machine

/-- The key state of the cycle that begins: what the host presents for it, else what it presented last. -/
theorem takeInput_keys (s : State) :
    (takeInput s).keys = match s.pending with
      | [] => s.keys
      | h :: _ => h.keys := by
  unfold takeInput
  split <;> simp_all

/-- Taking the inputs changes no piece of the spec's state but the keys. -/
theorem takeInput_eq (s : State) :
    takeInput s = { s with
      keys := (takeInput s).keys, rnd := (takeInput s).rnd, keyPick := (takeInput s).keyPick,
      pending := s.pending.tail, cycle := s.cycle + 1 } := by
  unfold takeInput
  split <;> simp_all

/-- The cycle takes what the host presents for it, and leaves the rest for the later cycles (10_state.md R21). -/
theorem takeInput_cons {s : State} {h : CycleInput} {later : List CycleInput} (hp : s.pending = h :: later) :
    takeInput s = { s with
      keys := h.keys, rnd := h.rnd, keyPick := h.keyPick, pending := later, cycle := s.cycle + 1 } := by
  simp only [takeInput, hp]

/-- The state after stages 1 to 3. -/
theorem beginCycle_eq (s : State) :
    beginCycle s = { s with
      pc := s.pc + 2, redraw := false, out := { status := .completed, beep := false, diag := none },
      keys := (takeInput s).keys, rnd := (takeInput s).rnd, keyPick := (takeInput s).keyPick,
      pending := s.pending.tail, cycle := s.cycle + 1 } := by
  rw [beginCycle, takeInput_eq]
  rfl

/-- The inputs of the cycle that begins are those the host presents for it. -/
theorem beginCycle_cons {s : State} {h : CycleInput} {later : List CycleInput} (hp : s.pending = h :: later) :
    (beginCycle s).keys = h.keys ∧ (beginCycle s).rnd = h.rnd ∧ (beginCycle s).keyPick = h.keyPick ∧
      (beginCycle s).pending = later := by
  rw [beginCycle, takeInput_cons hp]
  exact ⟨rfl, rfl, rfl, rfl⟩

variable (s : State)

@[simp] theorem beginCycle_v : (beginCycle s).v = s.v := by rw [beginCycle_eq]
@[simp] theorem beginCycle_i : (beginCycle s).i = s.i := by rw [beginCycle_eq]
@[simp] theorem beginCycle_pc : (beginCycle s).pc = s.pc + 2 := by rw [beginCycle_eq]
@[simp] theorem beginCycle_sp : (beginCycle s).sp = s.sp := by rw [beginCycle_eq]
@[simp] theorem beginCycle_stack : (beginCycle s).stack = s.stack := by rw [beginCycle_eq]
@[simp] theorem beginCycle_dt : (beginCycle s).dt = s.dt := by rw [beginCycle_eq]
@[simp] theorem beginCycle_st : (beginCycle s).st = s.st := by rw [beginCycle_eq]
@[simp] theorem beginCycle_mem : (beginCycle s).mem = s.mem := by rw [beginCycle_eq]
@[simp] theorem beginCycle_fb : (beginCycle s).fb = s.fb := by rw [beginCycle_eq]
@[simp] theorem beginCycle_redraw : (beginCycle s).redraw = false := by rw [beginCycle_eq]
@[simp] theorem beginCycle_fault : (beginCycle s).fault = s.fault := by rw [beginCycle_eq]
@[simp] theorem beginCycle_pending : (beginCycle s).pending = s.pending.tail := by rw [beginCycle_eq]
@[simp] theorem beginCycle_cycle : (beginCycle s).cycle = s.cycle + 1 := by rw [beginCycle_eq]
@[simp] theorem beginCycle_out :
    (beginCycle s).out = { status := .completed, beep := false, diag := none } := by rw [beginCycle_eq]
@[simp] theorem beginCycle_keys : (beginCycle s).keys = (takeInput s).keys := by rw [beginCycle_eq]

@[simp] theorem beginCycle_getV (r : Reg) : (beginCycle s).getV r = s.getV r := by
  simp only [State.getV, beginCycle_v]
@[simp] theorem beginCycle_getSlot (k : Fin 16) : (beginCycle s).getSlot k = s.getSlot k := by
  simp only [State.getSlot, beginCycle_stack]
@[simp] theorem beginCycle_byteAt (a : Nat) : (beginCycle s).byteAt a = s.byteAt a := by
  simp only [State.byteAt, beginCycle_mem]
@[simp] theorem beginCycle_cell (row : Fin 32) (col : Fin 64) : (beginCycle s).cell row col = s.cell row col := by
  simp only [State.cell, beginCycle_fb]

/-- A timer loses one, and stays at 0. -/
theorem toNat_countDown (b : Byte) : (countDown b).toNat = b.toNat - 1 := by
  unfold countDown
  split
  next h => simp [h]
  next h =>
    have : b.toNat ≠ 0 := fun h' => h (BitVec.eq_of_toNat_eq h')
    rw [BitVec.toNat_sub_of_le (by simp [BitVec.le_def]; omega)]
    rfl

/-- The end of a completed cycle. -/
theorem endCycle_completed {s : State} (h : s.out.status = .completed) : endCycle s = timerStage s := by
  simp only [endCycle, h]

/-- The end of a waiting cycle. -/
theorem endCycle_waiting {s : State} (h : s.out.status = .waitingForKey) : endCycle s = s := by
  simp only [endCycle, h]

/-- The end of a faulting cycle. -/
theorem endCycle_faulted {s : State} {f : Fault} (h : s.out.status = .faulted f) : endCycle s = s := by
  simp only [endCycle, h]

/-- The end of a cycle changes no piece of the state but the timers and the outputs. -/
theorem endCycle_eq (s : State) :
    ∃ d b, endCycle s = { s with dt := d, st := b, out := (endCycle s).out } := by
  cases h : s.out.status with
  | completed => exact ⟨_, _, by rw [endCycle_completed h]; rfl⟩
  | waitingForKey => exact ⟨s.dt, s.st, by rw [endCycle_waiting h]⟩
  | faulted f => exact ⟨s.dt, s.st, by rw [endCycle_faulted h]⟩

/-- What a cycle that gives a next state has done: the machine was not faulted, the fetch gave an opcode, the instruction
it decodes to gave a state, and the cycle ended. -/
theorem step_eq_next {s t : State} :
    step s = .next t ↔ s.fault = none ∧ ∃ w, fetch s = .ok w ∧
      ∃ u, exec (decodeWord w) (beginCycle s) = .next u ∧ t = endCycle u := by
  unfold step
  cases hf : s.fault with
  | some f => simp
  | none =>
    cases hw : fetch s with
    | error f => simp
    | ok w =>
      cases he : exec (decodeWord w) (beginCycle s) <;> simp [finish, he, eq_comm]

/-- The fetch gives an opcode exactly where both its bytes exist. -/
theorem fetch_eq_ok {s : State} {w : Word} :
    fetch s = .ok w ↔ s.pc.toNat + 1 < 4096 ∧
      w = wordOfBytes (s.byteAt s.pc.toNat) (s.byteAt (s.pc.toNat + 1)) := by
  unfold fetch Config.memSize
  split <;> simp_all [eq_comm]

theorem fetch_eq_error {s : State} {f : Fault} :
    fetch s = .error f ↔ ¬ s.pc.toNat + 1 < 4096 ∧ f = .fetchRange s.pc.toNat := by
  unfold fetch Config.memSize
  split <;> simp_all [eq_comm]

/-- A run of no cycle. -/
theorem run_zero (s : State) : Host.Core.run core 0 s = .next s := rfl

/-- A run goes on from the state its first cycle gives. -/
theorem run_succ {k : Nat} {s t : State} (h : step s = .next t) :
    Host.Core.run core (k + 1) s = Host.Core.run core k t := by
  have h' : core.step s = .next t := h
  simp only [Host.Core.run]
  rw [h']

end Sys2Proof.Machine
end

