-- ==== Sys2Proof/Laws/Decode.lean ====
section
/-! SUPPORT. The fields of an opcode as numbers, the fields of an assembled opcode, and what a mask tests
(30_encoding.md R51, R53, R54). -/
namespace Sys2Proof

/-- The value of a concatenation `a ## b` (00_scope.md R7). -/
theorem toNat_append_add {m n : Nat} (a : BitVec m) (b : BitVec n) :
    (a ++ b).toNat = a.toNat * 2 ^ n + b.toNat := by
  rw [BitVec.toNat_append, ← Nat.shiftLeft_add_eq_or_of_lt b.isLt, Nat.shiftLeft_eq]

theorem toNat_encNnn (op : BitVec 4) (nnn : BitVec 12) :
    (encNnn op nnn).toNat = op.toNat * 4096 + nnn.toNat := toNat_append_add op nnn

theorem toNat_encXnn (op : BitVec 4) (x : Reg) (nn : Byte) :
    (encXnn op x nn).toNat = (op.toNat * 16 + x.val) * 256 + nn.toNat := by
  refine (toNat_append_add (op ++ (BitVec.ofFin x : BitVec 4)) nn).trans ?_
  rw [toNat_append_add]; rfl

theorem toNat_encXyn (op : BitVec 4) (x y n : Fin 16) :
    (encXyn op x y n).toNat = ((op.toNat * 16 + x.val) * 16 + y.val) * 16 + n.val := by
  refine (toNat_append_add (op ++ (BitVec.ofFin x : BitVec 4) ++ (BitVec.ofFin y : BitVec 4)) _).trans ?_
  rw [toNat_append_add, toNat_append_add]; rfl

theorem toNat_wordOfBytes (hi lo : Byte) : (wordOfBytes hi lo).toNat = hi.toNat * 256 + lo.toNat :=
  toNat_append_add hi lo

theorem toNat_fieldOp (w : Word) : (fieldOp w).toNat = w.toNat / 4096 := by
  have := w.isLt
  simp only [fieldOp, BitVec.extractLsb'_toNat, Nat.shiftRight_eq_div_pow]; omega

theorem val_fieldX (w : Word) : (fieldX w).val = w.toNat / 256 % 16 := by
  simp only [fieldX, BitVec.val_toFin, BitVec.extractLsb'_toNat, Nat.shiftRight_eq_div_pow]

theorem val_fieldY (w : Word) : (fieldY w).val = w.toNat / 16 % 16 := by
  simp only [fieldY, BitVec.val_toFin, BitVec.extractLsb'_toNat, Nat.shiftRight_eq_div_pow]

theorem val_fieldN (w : Word) : (fieldN w).val = w.toNat % 16 := by
  simp [fieldN]

theorem toNat_fieldNn (w : Word) : (fieldNn w).toNat = w.toNat % 256 := by
  simp [fieldNn, BitVec.extractLsb'_toNat]

theorem toNat_fieldNnn (w : Word) : (fieldNnn w).toNat = w.toNat % 4096 := by
  simp [fieldNnn, BitVec.extractLsb'_toNat]

/-! ### The fields of an assembled opcode -/

@[simp] theorem fieldOp_encNnn (op : BitVec 4) (nnn : BitVec 12) : fieldOp (encNnn op nnn) = op :=
  BitVec.eq_of_toNat_eq (by rw [toNat_fieldOp, toNat_encNnn]; omega)

@[simp] theorem fieldNnn_encNnn (op : BitVec 4) (nnn : BitVec 12) : fieldNnn (encNnn op nnn) = nnn :=
  BitVec.eq_of_toNat_eq (by rw [toNat_fieldNnn, toNat_encNnn]; omega)

@[simp] theorem fieldOp_encXnn (op : BitVec 4) (x : Reg) (nn : Byte) : fieldOp (encXnn op x nn) = op :=
  BitVec.eq_of_toNat_eq (by rw [toNat_fieldOp, toNat_encXnn]; omega)

@[simp] theorem fieldX_encXnn (op : BitVec 4) (x : Reg) (nn : Byte) : fieldX (encXnn op x nn) = x :=
  Fin.ext (by rw [val_fieldX, toNat_encXnn]; omega)

@[simp] theorem fieldNn_encXnn (op : BitVec 4) (x : Reg) (nn : Byte) : fieldNn (encXnn op x nn) = nn :=
  BitVec.eq_of_toNat_eq (by rw [toNat_fieldNn, toNat_encXnn]; omega)

@[simp] theorem fieldOp_encXyn (op : BitVec 4) (x y n : Fin 16) : fieldOp (encXyn op x y n) = op :=
  BitVec.eq_of_toNat_eq (by rw [toNat_fieldOp, toNat_encXyn]; omega)

@[simp] theorem fieldX_encXyn (op : BitVec 4) (x y n : Fin 16) : fieldX (encXyn op x y n) = x :=
  Fin.ext (by rw [val_fieldX, toNat_encXyn]; omega)

@[simp] theorem fieldY_encXyn (op : BitVec 4) (x y n : Fin 16) : fieldY (encXyn op x y n) = y :=
  Fin.ext (by rw [val_fieldY, toNat_encXyn]; omega)

@[simp] theorem fieldN_encXyn (op : BitVec 4) (x y n : Fin 16) : fieldN (encXyn op x y n) = n :=
  Fin.ext (by rw [val_fieldN, toNat_encXyn]; omega)

/-! ### An opcode is its fields, in every format -/

theorem encNnn_fields (w : Word) : encNnn (fieldOp w) (fieldNnn w) = w :=
  BitVec.eq_of_toNat_eq (by rw [toNat_encNnn, toNat_fieldOp, toNat_fieldNnn]; omega)

theorem encXnn_fields (w : Word) : encXnn (fieldOp w) (fieldX w) (fieldNn w) = w :=
  BitVec.eq_of_toNat_eq (by rw [toNat_encXnn, toNat_fieldOp, val_fieldX, toNat_fieldNn]; omega)

theorem encXyn_fields (w : Word) : encXyn (fieldOp w) (fieldX w) (fieldY w) (fieldN w) = w :=
  BitVec.eq_of_toNat_eq (by rw [toNat_encXyn, toNat_fieldOp, val_fieldX, val_fieldY, val_fieldN]; omega)

/-! ### What a row of each format tests -/

theorem append_and_append {m n : Nat} (a c : BitVec m) (b d : BitVec n) :
    (a ++ b) &&& (c ++ d) = (a &&& c) ++ (b &&& d) := BitVec.and_append

theorem encNnn_and (op op' : BitVec 4) (nnn nnn' : BitVec 12) :
    encNnn op nnn &&& encNnn op' nnn' = encNnn (op &&& op') (nnn &&& nnn') := append_and_append op op' nnn nnn'

theorem encXnn_and (op op' : BitVec 4) (x x' : Reg) (nn nn' : Byte) :
    encXnn op x nn &&& encXnn op' x' nn' =
      encXnn (op &&& op') ((BitVec.ofFin x &&& BitVec.ofFin x' : BitVec 4)).toFin (nn &&& nn') := by
  refine (append_and_append (op ++ (BitVec.ofFin x : BitVec 4)) _ nn nn').trans ?_
  rw [append_and_append]; rfl

theorem encXyn_and (op op' : BitVec 4) (x x' y y' n n' : Fin 16) :
    encXyn op x y n &&& encXyn op' x' y' n' =
      encXyn (op &&& op') ((BitVec.ofFin x &&& BitVec.ofFin x' : BitVec 4)).toFin
        ((BitVec.ofFin y &&& BitVec.ofFin y' : BitVec 4)).toFin
        ((BitVec.ofFin n &&& BitVec.ofFin n' : BitVec 4)).toFin := by
  refine (append_and_append (op ++ (BitVec.ofFin x : BitVec 4) ++ (BitVec.ofFin y : BitVec 4)) _ _ _).trans ?_
  rw [append_and_append, append_and_append]; rfl

theorem nibble_and (a : BitVec 4) : a &&& 0xF#4 = a ∧ a &&& 0x0#4 = 0x0#4 := by
  revert a
  decide

theorem digit_and (x : Fin 16) : ((BitVec.ofFin x &&& BitVec.ofFin 0 : BitVec 4)).toFin = 0 ∧
    ((BitVec.ofFin x &&& BitVec.ofFin 15 : BitVec 4)).toFin = x := by
  revert x
  decide

/-- The mask of formats `NNN`, `XNN` and `XYN` keeps the leading digit. -/
theorem and_maskNnn (w : Word) : w &&& maskNnn = encNnn (fieldOp w) 0 := by
  have h : maskNnn = encNnn 0xF#4 0#12 := by decide
  conv_lhs => rw [h, ← encNnn_fields w, encNnn_and, (nibble_and _).1, BitVec.and_zero]
  rfl

/-- The mask of format `X` keeps the leading digit and the low byte. -/
theorem and_maskX (w : Word) : w &&& maskX = encXnn (fieldOp w) 0 (fieldNn w) := by
  have h : maskX = encXnn 0xF#4 0 (BitVec.allOnes 8) := by decide
  conv_lhs => rw [h, ← encXnn_fields w, encXnn_and, (nibble_and _).1, (digit_and _).1, BitVec.and_allOnes]

/-- The mask of format `XY` keeps the leading and the last digit. -/
theorem and_maskXy (w : Word) : w &&& maskXy = encXyn (fieldOp w) 0 0 (fieldN w) := by
  have h : maskXy = encXyn 0xF#4 0 0 15 := by decide
  conv_lhs =>
    rw [h, ← encXyn_fields w, encXyn_and, (nibble_and _).1, (digit_and _).1, (digit_and _).1, (digit_and _).2]

/-- A row of format `NNN`, `XNN` or `XYN` selects by the leading digit. -/
theorem selects_nnn (w : Word) (op : BitVec 4) :
    Row.selects ⟨maskNnn, encNnn op 0⟩ w = true ↔ fieldOp w = op := by
  rw [Row.selects, beq_iff_eq, and_maskNnn]
  exact ⟨fun h => by simpa using congrArg fieldOp h, fun h => by rw [h]⟩

/-- A row of format `X` selects by the leading digit and the low byte. -/
theorem selects_x (w : Word) (op : BitVec 4) (nn : Byte) :
    Row.selects ⟨maskX, encXnn op 0 nn⟩ w = true ↔ fieldOp w = op ∧ fieldNn w = nn := by
  rw [Row.selects, beq_iff_eq, and_maskX]
  exact ⟨fun h => ⟨by simpa using congrArg fieldOp h, by simpa using congrArg fieldNn h⟩,
    fun h => by rw [h.1, h.2]⟩

/-- A row of format `XY` selects by the leading and the last digit. -/
theorem selects_xy (w : Word) (op : BitVec 4) (n : Fin 16) :
    Row.selects ⟨maskXy, encXyn op 0 0 n⟩ w = true ↔ fieldOp w = op ∧ fieldN w = n := by
  rw [Row.selects, beq_iff_eq, and_maskXy]
  exact ⟨fun h => ⟨by simpa using congrArg fieldOp h, by simpa using congrArg fieldN h⟩,
    fun h => by rw [h.1, h.2]⟩

/-- A row of format `FIX` selects its own pattern. -/
theorem selects_fix (w p : Word) : Row.selects ⟨maskFix, p⟩ w = true ↔ w = p := by
  have h : maskFix = BitVec.allOnes 16 := by decide
  rw [Row.selects, beq_iff_eq, h, BitVec.and_allOnes]

end Sys2Proof
end

