-- ==== Sys2Proof/Laws/Display.lean ====
section
/-! SUPPORT. What drawing a sprite does to each cell and to the flag (43_display.md R111, R112). -/
namespace Sys2Proof.Machine

/-- The column offset, from the start column of a sprite, at which a column lies. -/
def colOffset (vx : Byte) (col : Fin 64) : Nat := (col.val + 64 - vx.toNat % 64) % 64

/-- The row offset, from the start row of a sprite, at which a row lies. -/
def rowOffset (vy : Byte) (row : Fin 32) : Nat := (row.val + 32 - vy.toNat % 32) % 32

theorem pixelCol_eq_iff {vx : Byte} {c : Nat} {col : Fin 64} (hc : c < 64) :
    col = pixelCol vx c ↔ colOffset vx col = c := by
  have := col.isLt
  simp only [pixelCol, Fin.ext_iff, Fin.ofNat, colOffset]
  omega

theorem pixelRow_eq_iff {vy : Byte} {r : Nat} {row : Fin 32} (hr : r < 32) :
    row = pixelRow vy r ↔ rowOffset vy row = r := by
  have := row.isLt
  simp only [pixelRow, Fin.ext_iff, Fin.ofNat, rowOffset]
  omega

/-- The fold of `drawRow` over any list of distinct offsets: the cells. -/
theorem cellOf_foldl_drawCell (row : Fin 32) (vx b : Byte) (cs : List Nat) (d : Drawing)
    (hnd : cs.Nodup) (hlt : ∀ c ∈ cs, c < 64) (row' : Fin 32) (col' : Fin 64) :
    cellOf (cs.foldl (fun d c => drawCell d row (pixelCol vx c) (spriteBit b c)) d).1 row' col' =
      if row' = row ∧ colOffset vx col' ∈ cs then cellOf d.1 row' col' ^^ spriteBit b (colOffset vx col')
      else cellOf d.1 row' col' := by
  induction cs generalizing d with
  | nil => simp
  | cons c cs ih =>
    obtain ⟨hc, hnd⟩ := List.nodup_cons.1 hnd
    rw [List.foldl_cons, ih _ hnd fun k hk => hlt k (List.mem_cons_of_mem _ hk)]
    simp only [drawCell, cellOf_xorCell, pixelCol_eq_iff (hlt c List.mem_cons_self), List.mem_cons]
    by_cases hr : row' = row
    · by_cases ho : colOffset vx col' = c
      · simp [hr, ho, hc]
      · simp [hr, ho]
    · simp [hr]

/-- The fold of `drawRow` over any list of distinct offsets: the flag. -/
theorem flag_foldl_drawCell (row : Fin 32) (vx b : Byte) (cs : List Nat) (d : Drawing)
    (hnd : cs.Nodup) (hlt : ∀ c ∈ cs, c < 64) (e : Drawing)
    (he : e = cs.foldl (fun d c => drawCell d row (pixelCol vx c) (spriteBit b c)) d) :
    ((∃ c ∈ cs, cellOf e.1 row (pixelCol vx c) = true) → e.2 = 1) ∧
      ((¬ ∃ c ∈ cs, cellOf e.1 row (pixelCol vx c) = true) → e.2 = d.2) := by
  induction cs generalizing d with
  | nil => simp [he]
  | cons c cs ih =>
    obtain ⟨hc, hnd⟩ := List.nodup_cons.1 hnd
    have hlt' : ∀ k ∈ cs, k < 64 := fun k hk => hlt k (List.mem_cons_of_mem _ hk)
    obtain ⟨h1, h0⟩ := ih _ hnd hlt' he
    have hcell : cellOf e.1 row (pixelCol vx c) =
        cellOf (drawCell d row (pixelCol vx c) (spriteBit b c)).1 row (pixelCol vx c) := by
      rw [he, List.foldl_cons, cellOf_foldl_drawCell _ _ _ _ _ hnd hlt',
        (pixelCol_eq_iff (hlt c List.mem_cons_self)).1 rfl, if_neg (by simp [hc])]
    simp only [List.mem_cons, exists_eq_or_imp, hcell]
    simp only [drawCell, drawFlag] at h0 ⊢
    by_cases hex : ∃ c ∈ cs, cellOf e.1 row (pixelCol vx c) = true
    · exact ⟨fun _ => h1 hex, fun h => absurd (.inr hex) h⟩
    · rw [h0 hex]
      exact ⟨fun h => if_pos (h.resolve_right hex), fun h => if_neg fun h' => h (.inl h')⟩

/-- One sprite row: its eight cells are XORed with its bits. -/
theorem cellOf_drawRow (d : Drawing) (row row' : Fin 32) (vx b : Byte) (col' : Fin 64) :
    cellOf (drawRow d row vx b).1 row' col' =
      if row' = row ∧ colOffset vx col' < 8 then cellOf d.1 row' col' ^^ spriteBit b (colOffset vx col')
      else cellOf d.1 row' col' := by
  rw [drawRow, cellOf_foldl_drawCell _ _ _ _ _ List.nodup_range (by simp; omega)]
  simp only [List.mem_range]

/-- One sprite row: the flag becomes 1 when one of its eight cells is lit after the drawing. -/
theorem flag_drawRow (d : Drawing) (row : Fin 32) (vx b : Byte) :
    ((∃ c, c < 8 ∧ cellOf (drawRow d row vx b).1 row (pixelCol vx c) = true) → (drawRow d row vx b).2 = 1) ∧
      ((¬ ∃ c, c < 8 ∧ cellOf (drawRow d row vx b).1 row (pixelCol vx c) = true) →
        (drawRow d row vx b).2 = d.2) := by
  have h := flag_foldl_drawCell row vx b (List.range 8) d List.nodup_range (by simp; omega) _ rfl
  simp only [List.mem_range] at h
  exact h

/-- The rows of a sprite: every cell at an offset inside it is XORed with the sprite's bit there, every other cell
stays. -/
theorem cellOf_drawRows (vx vy : Byte) (r : Nat) (d : Drawing) (bs : List Byte) (hr : r + bs.length ≤ 32)
    (row : Fin 32) (col : Fin 64) :
    cellOf (drawRows vx vy r d bs).1 row col =
      if h : (r ≤ rowOffset vy row ∧ rowOffset vy row < r + bs.length) ∧ colOffset vx col < 8 then
        cellOf d.1 row col ^^ spriteBit (bs[rowOffset vy row - r]'(by omega)) (colOffset vx col)
      else cellOf d.1 row col := by
  induction bs generalizing r d with
  | nil => rw [dif_neg (by simp)]; rfl
  | cons b bs ih =>
    simp only [List.length_cons] at hr
    rw [drawRows, ih (r + 1) _ (by omega), cellOf_drawRow]
    simp only [pixelRow_eq_iff (show r < 32 by omega), List.length_cons]
    by_cases hin : (r + 1 ≤ rowOffset vy row ∧ rowOffset vy row < r + 1 + bs.length) ∧ colOffset vx col < 8
    · have he : rowOffset vy row - r = (rowOffset vy row - (r + 1)) + 1 := by omega
      have hR : (r ≤ rowOffset vy row ∧ rowOffset vy row < r + (bs.length + 1)) ∧ colOffset vx col < 8 := by
        omega
      rw [dif_pos hin, dif_pos hR, if_neg (by omega)]
      simp [he]
    · rw [dif_neg hin]
      by_cases h0 : rowOffset vy row = r ∧ colOffset vx col < 8
      · have hR : (r ≤ rowOffset vy row ∧ rowOffset vy row < r + (bs.length + 1)) ∧ colOffset vx col < 8 := by
          omega
        rw [if_pos h0, dif_pos hR]
        simp [h0.1]
      · rw [if_neg h0, dif_neg (by omega)]

/-- The rows of a sprite: the flag becomes 1 when one of its cells is lit after the drawing. -/
theorem flag_drawRows (vx vy : Byte) (r : Nat) (d : Drawing) (bs : List Byte) (hr : r + bs.length ≤ 32)
    (e : Drawing) (he : e = drawRows vx vy r d bs) :
    ((∃ k c, k < bs.length ∧ c < 8 ∧ cellOf e.1 (pixelRow vy (r + k)) (pixelCol vx c) = true) → e.2 = 1) ∧
      ((¬ ∃ k c, k < bs.length ∧ c < 8 ∧ cellOf e.1 (pixelRow vy (r + k)) (pixelCol vx c) = true) →
        e.2 = d.2) := by
  induction bs generalizing r d with
  | nil => simp [he, drawRows]
  | cons b bs ih =>
    simp only [List.length_cons] at hr
    obtain ⟨h1, h0⟩ := ih (r + 1) (drawRow d (pixelRow vy r) vx b) (by omega) he
    obtain ⟨g1, g0⟩ := flag_drawRow d (pixelRow vy r) vx b
    have hcell : ∀ c, c < 8 → cellOf (drawRow d (pixelRow vy r) vx b).1 (pixelRow vy r) (pixelCol vx c) =
        cellOf e.1 (pixelRow vy r) (pixelCol vx c) := by
      intro c hc
      rw [he, drawRows, cellOf_drawRows _ _ _ _ _ (by omega), dif_neg]
      rw [(pixelRow_eq_iff (show r < 32 by omega)).1 rfl]
      omega
    have hrow : (∃ c, c < 8 ∧ cellOf (drawRow d (pixelRow vy r) vx b).1 (pixelRow vy r) (pixelCol vx c) = true) ↔
        ∃ c, c < 8 ∧ cellOf e.1 (pixelRow vy r) (pixelCol vx c) = true :=
      exists_congr fun c => and_congr_right fun hc => by rw [hcell c hc]
    rw [hrow] at g1 g0
    have hsplit : (∃ k c, k < (b :: bs).length ∧ c < 8 ∧
          cellOf e.1 (pixelRow vy (r + k)) (pixelCol vx c) = true) ↔
        (∃ k c, k < bs.length ∧ c < 8 ∧ cellOf e.1 (pixelRow vy (r + 1 + k)) (pixelCol vx c) = true) ∨
        ∃ c, c < 8 ∧ cellOf e.1 (pixelRow vy r) (pixelCol vx c) = true := by
      constructor
      · rintro ⟨k, c, hk, hc, h⟩
        cases k with
        | zero => exact .inr ⟨c, hc, h⟩
        | succ k =>
          refine .inl ⟨k, c, by simpa using hk, hc, ?_⟩
          rwa [show r + 1 + k = r + (k + 1) by omega]
      · rintro (⟨k, c, hk, hc, h⟩ | ⟨c, hc, h⟩)
        · refine ⟨k + 1, c, by simpa using hk, hc, ?_⟩
          rwa [show r + (k + 1) = r + 1 + k by omega]
        · exact ⟨0, c, by simp, hc, h⟩
    rw [hsplit]
    by_cases hlater : ∃ k c, k < bs.length ∧ c < 8 ∧ cellOf e.1 (pixelRow vy (r + 1 + k)) (pixelCol vx c) = true
    · exact ⟨fun _ => h1 hlater, fun h => absurd (.inl hlater) h⟩
    · rw [h0 hlater]
      exact ⟨fun h => g1 (h.resolve_left hlater), fun h => g0 fun h' => h (.inr h')⟩

end Sys2Proof.Machine
end

