-- ==== Sys2Proof/Laws/HostOps.lean ====
section
/-! SUPPORT. What each of the host's operations can answer (60_exceptions.md R146). -/
namespace Sys2Proof.Machine

/-! ### What presenting an input leaves in each field -/

@[simp] theorem present_v (h : CycleInput) (s : State) : (present h s).v = s.v := rfl
@[simp] theorem present_i (h : CycleInput) (s : State) : (present h s).i = s.i := rfl
@[simp] theorem present_pc (h : CycleInput) (s : State) : (present h s).pc = s.pc := rfl
@[simp] theorem present_sp (h : CycleInput) (s : State) : (present h s).sp = s.sp := rfl
@[simp] theorem present_stack (h : CycleInput) (s : State) : (present h s).stack = s.stack := rfl
@[simp] theorem present_dt (h : CycleInput) (s : State) : (present h s).dt = s.dt := rfl
@[simp] theorem present_st (h : CycleInput) (s : State) : (present h s).st = s.st := rfl
@[simp] theorem present_mem (h : CycleInput) (s : State) : (present h s).mem = s.mem := rfl
@[simp] theorem present_fb (h : CycleInput) (s : State) : (present h s).fb = s.fb := rfl
@[simp] theorem present_redraw (h : CycleInput) (s : State) : (present h s).redraw = s.redraw := rfl
@[simp] theorem present_keys (h : CycleInput) (s : State) : (present h s).keys = s.keys := rfl
@[simp] theorem present_fault (h : CycleInput) (s : State) : (present h s).fault = s.fault := rfl
@[simp] theorem present_rnd (h : CycleInput) (s : State) : (present h s).rnd = s.rnd := rfl
@[simp] theorem present_keyPick (h : CycleInput) (s : State) : (present h s).keyPick = s.keyPick := rfl
@[simp] theorem present_pending (h : CycleInput) (s : State) : (present h s).pending = h :: s.pending := rfl
@[simp] theorem present_cycle (h : CycleInput) (s : State) : (present h s).cycle = s.cycle := rfl
@[simp] theorem present_out (h : CycleInput) (s : State) : (present h s).out = s.out := rfl

/-- What a machine that is not faulted answers to a cycle call: what the cycle on the presented input gives. -/
theorem cycleCall_of_fault_none {input : CycleInput} {s : State} (h : s.fault = none) :
    cycleCall input s =
      match step (present input s) with
      | .next t => .returned t
      | .fault f => .faulted f (recordFault f s)
      | .refused r => .refused r := by
  rw [cycleCall, h]
  rfl

/-- A faulted machine accepts no cycle. -/
theorem cycleCall_of_fault {input : CycleInput} {s : State} {f : Fault} (h : s.fault = some f) :
    cycleCall input s = .notAccepted := by
  rw [cycleCall, h]
  rfl

/-- A cycle call that returns: the machine was not faulted, and the cycle on the presented input gave the state. -/
theorem cycleCall_eq_returned {input : CycleInput} {s t : State} :
    cycleCall input s = .returned t ↔ s.fault = none ∧ step (present input s) = .next t := by
  cases hf : s.fault with
  | some f => simp [cycleCall_of_fault hf]
  | none =>
    rw [cycleCall_of_fault_none hf]
    cases step (present input s) <;> simp

/-- A cycle call that faults: the machine was not faulted, the cycle on the presented input raised, and the state is the
one before the call with the fault recorded and the outputs of a faulting cycle. -/
theorem cycleCall_eq_faulted {input : CycleInput} {s t : State} {f : Fault} :
    cycleCall input s = .faulted f t ↔
      s.fault = none ∧ step (present input s) = .fault f ∧ t = recordFault f s := by
  cases hf : s.fault with
  | some g => simp [cycleCall_of_fault hf]
  | none =>
    rw [cycleCall_of_fault_none hf]
    cases step (present input s) with
    | next u => simp
    | fault g => simp +contextual [eq_comm]
    | refused r => simp

/-- A list of rows of 64 laid end to end: entry `row * 64 + col` is entry `col` of row `row`. -/
theorem getElem?_flatMap_rows {α β : Type} (g : α → Nat → β) (rows : List α) (row col : Nat) (hc : col < 64) :
    (rows.flatMap fun a => (List.range 64).map (g a))[row * 64 + col]? = rows[row]?.map fun a => g a col := by
  induction rows generalizing row with
  | nil => simp
  | cons a rows ih =>
    rw [List.flatMap_cons]
    cases row with
    | zero => rw [List.getElem?_append_left (by simpa using hc)]; simp [hc]
    | succ row =>
      rw [List.getElem?_append_right (by simp only [List.length_map, List.length_range]; omega),
        show (row + 1) * 64 + col - ((List.range 64).map (g a)).length = row * 64 + col by
          simp only [List.length_map, List.length_range]; omega]
      simpa using ih row

/-- What the host observes at `row * 64 + col` is the cell of the row and the column (10_state.md R17). -/
theorem observe_cell (s : State) (row : Fin 32) (col : Fin 64) :
    (observe s).cells[row.val * 64 + col.val]? = some (s.cell row col) := by
  rw [observe, getElem?_flatMap_rows (fun (r : BitVec 64) c => r.getLsbD c) _ _ _ col.isLt]
  simp [State.cell, cellOf]

/-- The host observes 2048 cells. -/
theorem length_observe (s : State) : (observe s).cells.length = 2048 := by
  simp [observe, Config.fbHeight]

end Sys2Proof.Machine
end

