-- ==== Sys2Proof/Laws/Operands.lean ====
section
/-! SUPPORT. The operand forms and the flags as numbers. -/
namespace Sys2Proof.Machine

@[simp] theorem toNat_addrImm (nnn : BitVec 12) : (addrImm nnn).toNat = nnn.toNat := by
  simp only [addrImm, BitVec.toNat_setWidth]
  exact Nat.mod_eq_of_lt (by omega)

@[simp] theorem toNat_zextByte (b : Byte) : (zextByte b).toNat = b.toNat := by
  simp only [zextByte, BitVec.toNat_setWidth]
  exact Nat.mod_eq_of_lt (by omega)

/-- The product of FX29 fits in 16 bits for every byte. -/
@[simp] theorem toNat_fontAddr (b : Byte) : (fontAddr b).toNat = 5 * b.toNat := by
  have := b.isLt
  rw [fontAddr, BitVec.toNat_mul, toNat_zextByte]
  exact Nat.mod_eq_of_lt (show 5 * b.toNat < 2 ^ 16 by omega)

/-- The three digits make up the byte. -/
theorem bcdDigits_sum (b : Byte) :
    ∃ h t o, bcdDigits b = [h, t, o] ∧ h.toNat = b.toNat / 100 ∧ t.toNat = b.toNat / 10 % 10 ∧ o.toNat = b.toNat % 10 ∧
      100 * h.toNat + 10 * t.toNat + o.toNat = b.toNat := by
  have := b.isLt
  refine ⟨_, _, _, rfl, ?_⟩
  simp only [BitVec.toNat_ofNat]
  omega

@[simp] theorem toNat_flag (b : Bool) : (flag b).toNat = b.toNat := by cases b <;> rfl

theorem toNat_carryFlag (a b : Byte) : (carryFlag a b).toNat = if 255 < a.toNat + b.toNat then 1 else 0 := by
  rw [carryFlag, toNat_flag]
  split <;> simp_all

theorem toNat_greaterFlag (a b : Byte) : (greaterFlag a b).toNat = if b.toNat < a.toNat then 1 else 0 := by
  rw [greaterFlag, toNat_flag]
  split <;> simp_all

theorem toNat_lowBitFlag (a : Byte) : (lowBitFlag a).toNat = a.toNat % 2 := by
  revert a; decide

theorem toNat_highBitFlag (a : Byte) : (highBitFlag a).toNat = a.toNat / 128 := by
  revert a; decide

end Sys2Proof.Machine
end

