-- ==== Sys2Proof/Laws/PerInstr.lean ====
section
/-! SUPPORT. Statements made of every instruction, one lemma per constructor. -/
namespace Sys2Proof.Laws

/-- The instruction's opcode is selected by its own row of the opcode map, and that row is in the map; the fallback row
has no mask and no match (30_encoding.md R55). -/
def InTable.Statement (i : Instr) : Prop :=
  match i.row with
  | some r => r ∈ opcodeTable ∧ r.selects (encodeWord i) = true
  | none => ∃ opcode, i = .unrecognized opcode

theorem InTable.cls : InTable.Statement .cls :=
  ⟨by decide, by decide⟩

theorem InTable.ret : InTable.Statement .ret :=
  ⟨by decide, by decide⟩

theorem InTable.jp (nnn : BitVec 12) : InTable.Statement (.jp nnn) :=
  ⟨by decide, (selects_nnn _ 0x1#4).2 (fieldOp_encNnn _ _)⟩

theorem InTable.call (nnn : BitVec 12) : InTable.Statement (.call nnn) :=
  ⟨by decide, (selects_nnn _ 0x2#4).2 (fieldOp_encNnn _ _)⟩

theorem InTable.seImm (x : Reg) (nn : Byte) : InTable.Statement (.seImm x nn) :=
  ⟨by decide, (selects_nnn _ 0x3#4).2 (fieldOp_encXnn _ _ _)⟩

theorem InTable.sneImm (x : Reg) (nn : Byte) : InTable.Statement (.sneImm x nn) :=
  ⟨by decide, (selects_nnn _ 0x4#4).2 (fieldOp_encXnn _ _ _)⟩

theorem InTable.seReg (x y : Reg) : InTable.Statement (.seReg x y) :=
  ⟨by decide, (selects_xy _ 0x5#4 0x0).2 ⟨fieldOp_encXyn _ _ _ _, fieldN_encXyn _ _ _ _⟩⟩

theorem InTable.ldImm (x : Reg) (nn : Byte) : InTable.Statement (.ldImm x nn) :=
  ⟨by decide, (selects_nnn _ 0x6#4).2 (fieldOp_encXnn _ _ _)⟩

theorem InTable.addImm (x : Reg) (nn : Byte) : InTable.Statement (.addImm x nn) :=
  ⟨by decide, (selects_nnn _ 0x7#4).2 (fieldOp_encXnn _ _ _)⟩

theorem InTable.ldReg (x y : Reg) : InTable.Statement (.ldReg x y) :=
  ⟨by decide, (selects_xy _ 0x8#4 0x0).2 ⟨fieldOp_encXyn _ _ _ _, fieldN_encXyn _ _ _ _⟩⟩

theorem InTable.orReg (x y : Reg) : InTable.Statement (.orReg x y) :=
  ⟨by decide, (selects_xy _ 0x8#4 0x1).2 ⟨fieldOp_encXyn _ _ _ _, fieldN_encXyn _ _ _ _⟩⟩

theorem InTable.andReg (x y : Reg) : InTable.Statement (.andReg x y) :=
  ⟨by decide, (selects_xy _ 0x8#4 0x2).2 ⟨fieldOp_encXyn _ _ _ _, fieldN_encXyn _ _ _ _⟩⟩

theorem InTable.xorReg (x y : Reg) : InTable.Statement (.xorReg x y) :=
  ⟨by decide, (selects_xy _ 0x8#4 0x3).2 ⟨fieldOp_encXyn _ _ _ _, fieldN_encXyn _ _ _ _⟩⟩

theorem InTable.addReg (x y : Reg) : InTable.Statement (.addReg x y) :=
  ⟨by decide, (selects_xy _ 0x8#4 0x4).2 ⟨fieldOp_encXyn _ _ _ _, fieldN_encXyn _ _ _ _⟩⟩

theorem InTable.subReg (x y : Reg) : InTable.Statement (.subReg x y) :=
  ⟨by decide, (selects_xy _ 0x8#4 0x5).2 ⟨fieldOp_encXyn _ _ _ _, fieldN_encXyn _ _ _ _⟩⟩

theorem InTable.shr (x y : Reg) : InTable.Statement (.shr x y) :=
  ⟨by decide, (selects_xy _ 0x8#4 0x6).2 ⟨fieldOp_encXyn _ _ _ _, fieldN_encXyn _ _ _ _⟩⟩

theorem InTable.subnReg (x y : Reg) : InTable.Statement (.subnReg x y) :=
  ⟨by decide, (selects_xy _ 0x8#4 0x7).2 ⟨fieldOp_encXyn _ _ _ _, fieldN_encXyn _ _ _ _⟩⟩

theorem InTable.shl (x y : Reg) : InTable.Statement (.shl x y) :=
  ⟨by decide, (selects_xy _ 0x8#4 0xE).2 ⟨fieldOp_encXyn _ _ _ _, fieldN_encXyn _ _ _ _⟩⟩

theorem InTable.sneReg (x y : Reg) : InTable.Statement (.sneReg x y) :=
  ⟨by decide, (selects_xy _ 0x9#4 0x0).2 ⟨fieldOp_encXyn _ _ _ _, fieldN_encXyn _ _ _ _⟩⟩

theorem InTable.ldI (nnn : BitVec 12) : InTable.Statement (.ldI nnn) :=
  ⟨by decide, (selects_nnn _ 0xA#4).2 (fieldOp_encNnn _ _)⟩

theorem InTable.jpV0 (nnn : BitVec 12) : InTable.Statement (.jpV0 nnn) :=
  ⟨by decide, (selects_nnn _ 0xB#4).2 (fieldOp_encNnn _ _)⟩

theorem InTable.rnd (x : Reg) (nn : Byte) : InTable.Statement (.rnd x nn) :=
  ⟨by decide, (selects_nnn _ 0xC#4).2 (fieldOp_encXnn _ _ _)⟩

theorem InTable.drw (x y : Reg) (n : Fin 16) : InTable.Statement (.drw x y n) :=
  ⟨by decide, (selects_nnn _ 0xD#4).2 (fieldOp_encXyn _ _ _ _)⟩

theorem InTable.skp (x : Reg) : InTable.Statement (.skp x) :=
  ⟨by decide, (selects_x _ 0xE#4 0x9E#8).2 ⟨fieldOp_encXnn _ _ _, fieldNn_encXnn _ _ _⟩⟩

theorem InTable.sknp (x : Reg) : InTable.Statement (.sknp x) :=
  ⟨by decide, (selects_x _ 0xE#4 0xA1#8).2 ⟨fieldOp_encXnn _ _ _, fieldNn_encXnn _ _ _⟩⟩

theorem InTable.ldVxDt (x : Reg) : InTable.Statement (.ldVxDt x) :=
  ⟨by decide, (selects_x _ 0xF#4 0x07#8).2 ⟨fieldOp_encXnn _ _ _, fieldNn_encXnn _ _ _⟩⟩

theorem InTable.ldVxKey (x : Reg) : InTable.Statement (.ldVxKey x) :=
  ⟨by decide, (selects_x _ 0xF#4 0x0A#8).2 ⟨fieldOp_encXnn _ _ _, fieldNn_encXnn _ _ _⟩⟩

theorem InTable.ldDtVx (x : Reg) : InTable.Statement (.ldDtVx x) :=
  ⟨by decide, (selects_x _ 0xF#4 0x15#8).2 ⟨fieldOp_encXnn _ _ _, fieldNn_encXnn _ _ _⟩⟩

theorem InTable.ldStVx (x : Reg) : InTable.Statement (.ldStVx x) :=
  ⟨by decide, (selects_x _ 0xF#4 0x18#8).2 ⟨fieldOp_encXnn _ _ _, fieldNn_encXnn _ _ _⟩⟩

theorem InTable.addI (x : Reg) : InTable.Statement (.addI x) :=
  ⟨by decide, (selects_x _ 0xF#4 0x1E#8).2 ⟨fieldOp_encXnn _ _ _, fieldNn_encXnn _ _ _⟩⟩

theorem InTable.ldFont (x : Reg) : InTable.Statement (.ldFont x) :=
  ⟨by decide, (selects_x _ 0xF#4 0x29#8).2 ⟨fieldOp_encXnn _ _ _, fieldNn_encXnn _ _ _⟩⟩

theorem InTable.ldBcd (x : Reg) : InTable.Statement (.ldBcd x) :=
  ⟨by decide, (selects_x _ 0xF#4 0x33#8).2 ⟨fieldOp_encXnn _ _ _, fieldNn_encXnn _ _ _⟩⟩

theorem InTable.storeRegs (x : Reg) : InTable.Statement (.storeRegs x) :=
  ⟨by decide, (selects_x _ 0xF#4 0x55#8).2 ⟨fieldOp_encXnn _ _ _, fieldNn_encXnn _ _ _⟩⟩

theorem InTable.loadRegs (x : Reg) : InTable.Statement (.loadRegs x) :=
  ⟨by decide, (selects_x _ 0xF#4 0x65#8).2 ⟨fieldOp_encXnn _ _ _, fieldNn_encXnn _ _ _⟩⟩

theorem InTable.unrecognized (opcode : Word) : InTable.Statement (.unrecognized opcode) :=
  ⟨opcode, rfl⟩

end Sys2Proof.Laws
end

