-- ==== Sys2Proof/Tests/Slice0.lean ====
section
/-! SUPPORT. Tests with expected results from 95_test_vectors.md (the vector is named before each), and for every
statement with hypotheses a state and operands that meet them. -/
namespace Sys2Proof.Tests
open Sys2Proof.Machine

/-! ## Helpers -/

/-- The reset state with an opcode at 0x200, the start of most vectors. -/
def at200 (opcode : Word) : State := State.reset.withFetchWord 16 opcode.toNat

/-- Bytes stored in a state's memory. -/
def putBytes (a : Nat) (bytes : List Byte) (s : State) : State := s.setMem (writeBytes s.mem a bytes)

/-- The next cycle is given these keys, this random byte and this draw. -/
def giving (keys : List Reg) (rnd : RndByte) (pick : Nat) (s : State) : State :=
  { s with pending := [{ keys := Vector.ofFn fun k => decide (k ∈ keys), rnd := rnd, keyPick := pick }] }

/-- The state with these keys pressed. -/
def pressing (keys : List Reg) (s : State) : State := { s with keys := Vector.ofFn fun k => decide (k ∈ keys) }

/-- What is seen of the state one cycle later, none if the cycle faults. -/
def after {α : Type} (s : State) (see : State → α) : Option α :=
  match step s with
  | .next t => some (see t)
  | _ => none

/-- The fault in which the next cycle ends. -/
def stopOf (s : State) : Option Fault :=
  match step s with
  | .fault f => some f
  | _ => none

/-! ## Well-formedness (30_encoding.md R56): an `unrecognized` that carries a recognized opcode is ill-formed -/

theorem test_wf_unrecognized : (Instr.unrecognized 0x5AB1#16).wf = true := by decide
theorem test_ill_formed_unrecognized_add : (Instr.unrecognized 0x8AB4#16).wf = false := by decide
theorem test_ill_formed_unrecognized_cls : (Instr.unrecognized 0x00E0#16).wf = false := by decide
theorem test_wf_add : (Instr.addReg 10 11).wf = true := by decide

/-! ## Decoding (section 2.1): every constructor, from a word of the spec's table, bit by bit -/

theorem test_decode_control :
    decodeWord 0b0000000011101110#16 = .ret ∧ decodeWord 0b0001101010111100#16 = .jp 0xABC ∧
    decodeWord 0b0010111100000000#16 = .call 0xF00 ∧ decodeWord 0b1011001100000000#16 = .jpV0 0x300 := by decide
theorem test_decode_skips :
    decodeWord 0b0011101001000010#16 = .seImm 10 0x42 ∧ decodeWord 0b0100111100000000#16 = .sneImm 15 0 ∧
    decodeWord 0b0101101010110000#16 = .seReg 10 11 ∧ decodeWord 0b1001101010110000#16 = .sneReg 10 11 := by decide
theorem test_decode_loads :
    decodeWord 0b0110101001111111#16 = .ldImm 10 0x7F ∧ decodeWord 0b0111000011111111#16 = .addImm 0 0xFF ∧
    decodeWord 0b1100101000001111#16 = .rnd 10 0x0F := by decide
theorem test_decode_alu :
    decodeWord 0b1000101010110000#16 = .ldReg 10 11 ∧ decodeWord 0b1000101010110001#16 = .orReg 10 11 ∧
    decodeWord 0b1000101010110010#16 = .andReg 10 11 ∧ decodeWord 0b1000101010110011#16 = .xorReg 10 11 ∧
    decodeWord 0b1000101010110100#16 = .addReg 10 11 ∧ decodeWord 0b1000101010110101#16 = .subReg 10 11 ∧
    decodeWord 0b1000101010110110#16 = .shr 10 11 ∧ decodeWord 0b1000101010110111#16 = .subnReg 10 11 ∧
    decodeWord 0b1000101010111110#16 = .shl 10 11 := by decide
theorem test_decode_display :
    decodeWord 0b0000000011100000#16 = .cls ∧ decodeWord 0b1101000100101010#16 = .drw 1 2 10 ∧
    decodeWord 0b1101000100100000#16 = .drw 1 2 0 := by decide
theorem test_decode_keypad :
    decodeWord 0b1110010110011110#16 = .skp 5 ∧ decodeWord 0b1110010110100001#16 = .sknp 5 ∧
    decodeWord 0b1111010100001010#16 = .ldVxKey 5 := by decide
theorem test_decode_timers :
    decodeWord 0b1111010100000111#16 = .ldVxDt 5 ∧ decodeWord 0b1111010100010101#16 = .ldDtVx 5 ∧
    decodeWord 0b1111010100011000#16 = .ldStVx 5 := by decide
theorem test_decode_index :
    decodeWord 0b1010000100100011#16 = .ldI 0x123 ∧ decodeWord 0b1111010100011110#16 = .addI 5 ∧
    decodeWord 0b1111010100101001#16 = .ldFont 5 ∧ decodeWord 0b1111010100110011#16 = .ldBcd 5 ∧
    decodeWord 0b1111010101010101#16 = .storeRegs 5 ∧ decodeWord 0b1111010101100101#16 = .loadRegs 5 := by decide
theorem test_decode_unrecognized_low :
    decodeWord 0x0000#16 = .unrecognized 0x0000 ∧ decodeWord 0x00E1#16 = .unrecognized 0x00E1 ∧
    decodeWord 0x01E0#16 = .unrecognized 0x01E0 ∧ decodeWord 0x5AB1#16 = .unrecognized 0x5AB1 ∧
    decodeWord 0x8AB8#16 = .unrecognized 0x8AB8 ∧ decodeWord 0x8ABD#16 = .unrecognized 0x8ABD := by decide
theorem test_decode_unrecognized_high :
    decodeWord 0x8ABF#16 = .unrecognized 0x8ABF ∧ decodeWord 0x9AB1#16 = .unrecognized 0x9AB1 ∧
    decodeWord 0xE59F#16 = .unrecognized 0xE59F ∧ decodeWord 0xE5A0#16 = .unrecognized 0xE5A0 ∧
    decodeWord 0xF50B#16 = .unrecognized 0xF50B ∧ decodeWord 0xF575#16 = .unrecognized 0xF575 := by decide
/-- S11: the high byte of the opcode is the one at the lower address. -/
theorem test_decode_bytes : decode [0x8A, 0xB4, 0x12] = .ok (.addReg 10 11, [0x12]) := by decide
theorem test_decode_truncated : decode [0x8A] = .error .truncated := by decide
theorem test_encode_add : encode (.addReg 10 11) = [0x8A, 0xB4] := by decide
theorem test_table_word : decodeTableWord 16 0xD12A = some (.drw 1 2 10) := by decide

/-! ## Fetch, cycle and host operations (section 2.1) -/

/-- T5. -/
theorem test_fetch_big_endian : after (at200 0x1234) (fun t => t.pc) = some 0x234 := by decide
/-- T6. -/
theorem test_fetch_odd :
    after (putBytes 0x201 [0x6A, 0x7F] (State.reset.setPc 0x201)) (fun t => (t.getV 10, t.pc)) =
      some (0x7F, 0x203) := by decide
/-- T7. -/
theorem test_fetch_last :
    after (putBytes 0xFFE [0x6A, 0x01] (State.reset.setPc 0xFFE)) (fun t => (t.getV 10, t.pc, stopOf t)) =
      some (1, 0x1000, some (.fetchRange 0x1000)) := by decide
/-- T8. -/
theorem test_fetch_4095 : stopOf (State.reset.setPc 0xFFF) = some (.fetchRange 0xFFF) := by decide
/-- T9. -/
theorem test_fetch_no_wrap : stopOf (State.reset.setPc 0x10FE) = some (.fetchRange 0x10FE) := by decide
/-- T2. -/
theorem test_load :
    (match loadProgram [0x12, 0x00] State.reset with
      | .ok t => some (t.byteAt 0x200, t.byteAt 0x201, t.byteAt 0)
      | _ => none) = some (0x12, 0x00, 0xF0) := by decide
/-- T4, S8. -/
theorem test_load_too_long : loadProgram (List.replicate 3585 0) State.reset = .tooLong := by
  rw [loadProgram, if_neg (by decide), if_pos (by rw [List.length_replicate]; decide)]
/-- R138, the example of section 2.1. -/
theorem test_unrecognized :
    after ((((at200 0x5AB1).setDt 3).setSt 1).setRedraw true)
      (fun t => (t.pc, t.dt, t.st, t.out)) =
      some (0x202, 2, 0, ⟨.completed, true, some ⟨0x5AB1, 0x200⟩⟩) := by decide
/-- T175. -/
theorem test_timers_stay_at_zero : after (at200 0x6000) (fun t => (t.dt, t.st, t.out.beep)) = some (0, 0, false) := by
  decide
/-- P5: a faulting cycle call records the fault and keeps the program counter. -/
theorem test_fault_recorded :
    (match cycleCall { keys := State.reset.keys, rnd := 0, keyPick := 0 } (at200 0x00EE) with
      | .faulted f t => some (f, t.fault, t.pc)
      | _ => none) = some (.stackUnderflow 0, some (.stackUnderflow 0), 0x200) := by decide
/-- R22, R130 (c): the outputs of a faulting cycle are not those of the cycle before it, here one that beeped. -/
theorem test_fault_outputs :
    (match cycleCall { keys := State.reset.keys, rnd := 0, keyPick := 0 }
        ((at200 0x00EE).setOut ⟨.completed, true, some ⟨0x5AB1, 0x1FE⟩⟩) with
      | .faulted _ t => some t.out
      | _ => none) = some ⟨.faulted (.stackUnderflow 0), false, none⟩ := by decide
/-- R162, the shape of P7: a launched program sees the key and the random byte presented for its cycle. -/
theorem test_launch_key :
    after (launch [0xE0, 0x9E] [⟨Vector.ofFn fun k => decide (k = 0), 0, 0⟩]) (fun t => t.pc) = some 0x204 := by decide
theorem test_launch_rnd :
    after (launch [0xC0, 0x0F] [⟨State.reset.keys, 0xA7, 0⟩]) (fun t => t.getV 0) = some 7 := by decide
/-- R145: the cells are observed row by row. -/
theorem test_observe :
    (observe (State.reset.setFb (xorCell clearFb 1 2 true))).cells[66]? = some true := by decide

/-! ## Control transfer (section 2.2) -/

/-- T20. -/
theorem test_ret :
    after (((at200 0x00EE).setSp 1).setSlot 1 0x20A) (fun t => (t.pc, t.sp, t.getSlot 1)) =
      some (0x20A, 0, 0x20A) := by decide
/-- T21. -/
theorem test_ret_underflow : stopOf (at200 0x00EE) = some (.stackUnderflow 0) := by decide
/-- T23. -/
theorem test_jp : after (at200 0x1ABC) (fun t => t.pc) = some 0xABC := by decide
/-- T28. -/
theorem test_call :
    after ((at200 0x2300).setSp 14) (fun t => (t.sp, t.getSlot 15, t.pc)) = some (15, 0x202, 0x300) := by decide
/-- T29. -/
theorem test_call_overflow : stopOf ((at200 0x2300).setSp 15) = some (.stackOverflow 15) := by decide
/-- T30. -/
theorem test_se_imm_taken : after ((at200 0x3A42).setV 10 0x42) (fun t => t.pc) = some 0x204 := by decide
/-- T31. -/
theorem test_se_imm_not_taken : after ((at200 0x3A42).setV 10 0x43) (fun t => t.pc) = some 0x202 := by decide
/-- T33. -/
theorem test_sne_imm_not_taken : after ((at200 0x4A42).setV 10 0x42) (fun t => t.pc) = some 0x202 := by decide
/-- T34. -/
theorem test_sne_imm_taken : after ((at200 0x4A42).setV 10 0x43) (fun t => t.pc) = some 0x204 := by decide
/-- T35. -/
theorem test_se_reg_taken : after (((at200 0x5120).setV 1 7).setV 2 7) (fun t => t.pc) = some 0x204 := by decide
/-- T36. -/
theorem test_se_reg_not_taken : after (((at200 0x5120).setV 1 7).setV 2 8) (fun t => t.pc) = some 0x202 := by decide
/-- T39. -/
theorem test_sne_reg_taken : after (((at200 0x9120).setV 1 7).setV 2 8) (fun t => t.pc) = some 0x204 := by decide
/-- T40. -/
theorem test_sne_reg_not_taken : after (((at200 0x9120).setV 1 7).setV 2 7) (fun t => t.pc) = some 0x202 := by decide
/-- T43. -/
theorem test_jp_v0_register : after ((at200 0xB300).setV 3 0x55) (fun t => t.pc) = some 0x300 := by decide
/-- T44. -/
theorem test_jp_v0_no_wrap :
    after ((at200 0xBFFF).setV 0 0xFF) (fun t => (t.pc, stopOf t)) = some (0x10FE, some (.fetchRange 0x10FE)) := by
  decide

/-! ## Loads, arithmetic, logic, shifts, random (section 2.3) -/

/-- T50. -/
theorem test_ld_imm : after (at200 0x6A7F) (fun t => (t.getV 10, t.pc)) = some (0x7F, 0x202) := by decide
/-- T52. -/
theorem test_add_imm_no_flag :
    after ((at200 0x7A01).setV 10 0xFF) (fun t => (t.getV 10, t.getV 15)) = some (0, 0) := by decide
/-- T55. -/
theorem test_ld_reg : after ((at200 0x8AB0).setV 11 0x99) (fun t => (t.getV 10, t.getV 11)) = some (0x99, 0x99) := by
  decide
/-- T56. -/
theorem test_or :
    after ((((at200 0x8AB1).setV 10 0xF0).setV 11 0x0F).setV 15 7) (fun t => (t.getV 10, t.getV 15)) =
      some (0xFF, 7) := by decide
/-- T57. -/
theorem test_and :
    after ((((at200 0x8AB2).setV 10 0xF0).setV 11 0x3C).setV 15 7) (fun t => (t.getV 10, t.getV 15)) =
      some (0x30, 7) := by decide
/-- T58. -/
theorem test_xor :
    after ((((at200 0x8AB3).setV 10 0xF0).setV 11 0x3C).setV 15 7) (fun t => (t.getV 10, t.getV 15)) =
      some (0xCC, 7) := by decide
/-- S4. -/
theorem test_add_carry :
    after (((at200 0x8AB4).setV 10 0xFF).setV 11 1) (fun t => (t.getV 10, t.getV 15)) = some (0, 1) := by decide
/-- T64. -/
theorem test_add_into_flag :
    after (((at200 0x8F14).setV 15 0xFF).setV 1 1) (fun t => t.getV 15) = some 1 := by decide
/-- T69. -/
theorem test_sub_equal :
    after ((((at200 0x8AB5).setV 10 0x33).setV 11 0x33).setV 15 1) (fun t => (t.getV 10, t.getV 15)) =
      some (0, 0) := by decide
/-- T74. -/
theorem test_sub_flag_operand :
    after (((at200 0x8AF5).setV 10 0x10).setV 15 5) (fun t => (t.getV 10, t.getV 15)) = some (0x0F, 1) := by decide
/-- T77. -/
theorem test_shr :
    after (((at200 0x8AB6).setV 10 5).setV 11 0xFF) (fun t => (t.getV 10, t.getV 15, t.getV 11)) =
      some (2, 1, 0xFF) := by decide
/-- T81. -/
theorem test_shr_flag_operand : after ((at200 0x8F06).setV 15 3) (fun t => t.getV 15) = some 0 := by decide
/-- T83. -/
theorem test_subn :
    after (((at200 0x8AB7).setV 10 0x10).setV 11 1) (fun t => (t.getV 10, t.getV 15)) = some (0xF1, 0) := by decide
/-- T85. -/
theorem test_subn_flag_operand :
    after (((at200 0x8AF7).setV 10 3).setV 15 0x10) (fun t => (t.getV 10, t.getV 15)) = some (0xFE, 1) := by decide
/-- T87. -/
theorem test_shl :
    after (((at200 0x8ABE).setV 10 0x81).setV 11 0x55) (fun t => (t.getV 10, t.getV 15)) = some (2, 1) := by decide
/-- T90. -/
theorem test_shl_flag_operand : after ((at200 0x8F0E).setV 15 0x80) (fun t => t.getV 15) = some 2 := by decide
/-- T92. -/
theorem test_rnd : after (giving [] 0xA7 0 (at200 0xCA0F)) (fun t => t.getV 10) = some 7 := by decide
/-- T93. -/
theorem test_rnd_max : after (giving [] 254 0 (at200 0xCAFF)) (fun t => t.getV 10) = some 0xFE := by decide

/-! ## Index register and memory (section 2.4) -/

/-- T100. -/
theorem test_ld_i : after ((at200 0xA123).setI 0xFFFF) (fun t => t.i) = some 0x123 := by decide
/-- T102. -/
theorem test_add_i_no_flag :
    after (((at200 0xFA1E).setI 0xFFF).setV 10 1) (fun t => (t.i, t.getV 15)) = some (0x1000, 0) := by decide
/-- T103. -/
theorem test_add_i_wraps : after (((at200 0xFA1E).setI 0xFFFF).setV 10 2) (fun t => t.i) = some 1 := by decide
/-- T104. -/
theorem test_ld_font : after ((at200 0xFA29).setV 10 0x0A) (fun t => t.i) = some 50 := by decide
/-- T107. -/
theorem test_ld_font_whole_byte : after ((at200 0xFA29).setV 10 0xFF) (fun t => t.i) = some 1275 := by decide
/-- T113. -/
theorem test_bcd :
    after (((at200 0xFA33).setV 10 157).setI 0xFFD) (fun t => (t.byteAt 0xFFD, t.byteAt 0xFFE, t.byteAt 0xFFF)) =
      some (1, 5, 7) := by decide
/-- T116. -/
theorem test_bcd_no_wrap : stopOf ((at200 0xFA33).setI 0xFFFF) = some (.memWriteRange 0xFFFF) := by decide
/-- S7. -/
theorem test_store_regs :
    after (putBytes 0x403 [0xAA] (((((at200 0xF355).setV 0 1).setV 1 2).setV 2 3).setV 3 4 |>.setI 0x400))
      (fun t => (t.byteAt 0x400, t.byteAt 0x401, t.byteAt 0x402, t.byteAt 0x403)) = some (1, 2, 3, 0xAA) := by decide
/-- T122. -/
theorem test_store_regs_fault : stopOf ((at200 0xF355).setI 0xFFE) = some (.memWriteRange 0x1000) := by decide
/-- T126. -/
theorem test_load_regs :
    after (putBytes 0x400 [0x11, 0x22, 0x33] (((at200 0xF265).setI 0x400).setV 2 9))
      (fun t => (t.getV 0, t.getV 1, t.getV 2)) = some (0x11, 0x22, 9) := by decide
/-- T129. -/
theorem test_load_regs_fault : stopOf ((at200 0xF165).setI 0x1000) = some (.memReadRange 0x1000) := by decide

/-! ## Display (section 2.5) -/

/-- T140. -/
theorem test_cls :
    after (((at200 0x00E0).setFb (xorCell (xorCell clearFb 0 0 true) 31 63 true)).setV 15 5)
      (fun t => (t.cell 0 0, t.cell 31 63, t.redraw, t.getV 15)) = some (false, false, true, 5) := by decide
/-- S6. -/
theorem test_drw_wraps :
    after (putBytes 0x300 [0xFF] (((at200 0xD011).setV 0 60).setI 0x300))
      (fun t => ((List.finRange 64).filter fun c => t.cell 0 c, t.getV 15, t.redraw)) =
      some ([0, 1, 2, 3, 60, 61, 62, 63], 1, true) := by decide
/-- T144: a lit cell under a sprite bit of 0 stays and sets the flag. -/
theorem test_drw_touched :
    after (((at200 0xD011).setI 0x300).setFb (xorCell clearFb 0 0 true)) (fun t => (t.cell 0 0, t.getV 15)) =
      some (true, 1) := by decide

/-! ## Keypad and timers (section 2.6) -/

/-- T160. -/
theorem test_skp : after (giving [5] 0 0 ((at200 0xEA9E).setV 10 5)) (fun t => t.pc) = some 0x204 := by decide
/-- T163. -/
theorem test_skp_fault : stopOf (giving [5] 0 0 ((at200 0xEA9E).setV 10 0x15)) = some (.keyIndexRange 21) := by decide
/-- T164. -/
theorem test_sknp : after (giving [5] 0 0 ((at200 0xEAA1).setV 10 5)) (fun t => t.pc) = some 0x202 := by decide
/-- T166. -/
theorem test_sknp_fault : stopOf ((at200 0xEAA1).setV 10 0xFF) = some (.keyIndexRange 255) := by decide
/-- T167. -/
theorem test_read_delay : after ((at200 0xFA07).setDt 0x2A) (fun t => (t.getV 10, t.dt)) = some (0x2A, 0x29) := by
  decide
/-- T169. -/
theorem test_set_delay : after ((at200 0xFA15).setV 10 5) (fun t => t.dt) = some 4 := by decide
/-- T172. -/
theorem test_set_sound : after ((at200 0xFA18).setV 10 1) (fun t => (t.st, t.out.beep)) = some (0, true) := by decide
/-- T174. -/
theorem test_set_sound_zero : after ((at200 0xFA18).setSt 1) (fun t => (t.st, t.out.beep)) = some (0, false) := by
  decide
/-- T177. -/
theorem test_key_wait :
    after ((((at200 0xF10A).setDt 5).setSt 1).setRedraw true)
      (fun t => (t.out.status, t.pc, t.dt, t.st, t.out.beep, t.redraw)) =
      some (.waitingForKey, 0x200, 5, 1, false, false) := by decide
/-- T179: each of the two pressed keys is the choice of some draw. -/
theorem test_key_choice :
    after (giving [3, 9] 0 0 (at200 0xF10A)) (fun t => (t.getV 1, t.pc)) = some (3, 0x202) ∧
    after (giving [3, 9] 0 1 (at200 0xF10A)) (fun t => (t.getV 1, t.pc)) = some (9, 0x202) := by decide

/-! ## Witnesses: for each hypothesis of a statement, a state and operands that meet it -/

/-- Every pattern of the opcode map selects an opcode (the hypothesis of `Selects`). -/
theorem witness_selects :
    0x00E0#16 &&& 0xFFFF#16 = 0x00E0#16 ∧ 0x1ABC#16 &&& 0xF000#16 = 0x1000#16 ∧
    0x5AB0#16 &&& 0xF00F#16 = 0x5000#16 ∧ 0x8ABE#16 &&& 0xF00F#16 = 0x800E#16 ∧
    0xE59E#16 &&& 0xF0FF#16 = 0xE09E#16 ∧ 0xF565#16 &&& 0xF0FF#16 = 0xF065#16 := by decide

/-- The bounds of the stack (T20, T21, T28, T29). -/
theorem witness_RetPopsPc_next : (State.reset.setSp 1).sp.val ≠ 0 := by decide
theorem witness_RetPopsPc_fault : State.reset.sp.val = 0 := by decide
theorem witness_CallPushesPc_next : (State.reset.setSp 14).sp.val ≠ 15 := by decide
theorem witness_CallPushesPc_fault : (State.reset.setSp 15).sp.val = 15 := by decide

/-- The destination is not the flag register (`AddRegisterSetsCarry` and the four flag-first statements). -/
theorem witness_destination_is_not_flag : (14 : Reg) ≠ 15 := by decide

theorem witness_BcdStoresThreeDigits_next :
    (State.reset.setI 0xFFD).mem.wf = true ∧ (State.reset.setI 0xFFD).i.toNat + 2 ≤ 4095 := by decide
theorem witness_BcdStoresThreeDigits_fault : 4095 < (State.reset.setI 0xFFE).i.toNat + 2 := by decide
theorem witness_StoreRegistersExclusive_next :
    (State.reset.setI 0xFFD).mem.wf = true ∧ (State.reset.setI 0xFFD).i.toNat + (3 : Reg).val - 1 ≤ 4095 := by decide
theorem witness_StoreRegistersExclusive_none :
    (State.reset.setI 0xFFFF).mem.wf = true ∧
    ((0 : Reg).val = 0 ∨ (State.reset.setI 0xFFFF).i.toNat + (0 : Reg).val - 1 ≤ 4095) := by decide
theorem witness_StoreRegistersExclusive_fault :
    1 ≤ (3 : Reg).val ∧ 4095 < (State.reset.setI 0xFFE).i.toNat + (3 : Reg).val - 1 := by decide
theorem witness_LoadRegistersExclusive_next :
    (3 : Reg).val = 0 ∨ (State.reset.setI 0xFFD).i.toNat + (3 : Reg).val - 1 ≤ 4095 := by decide
theorem witness_LoadRegistersExclusive_none :
    (0 : Reg).val = 0 ∨ (State.reset.setI 0xFFFF).i.toNat + (0 : Reg).val - 1 ≤ 4095 := by decide
theorem witness_LoadRegistersExclusive_fault :
    1 ≤ (1 : Reg).val ∧ 4095 < (State.reset.setI 0x1000).i.toNat + (1 : Reg).val - 1 := by decide

/-- The last legal `I` (T152), no row at all (T150), and the first fault (T151). -/
theorem witness_DrawXorsSprite_next :
    ((1 : Fin 16).val = 0 ∨ (State.reset.setI 0xFFF).i.toNat + (1 : Fin 16).val - 1 ≤ 4095) ∧
    ((0 : Fin 16).val = 0 ∨ (State.reset.setI 0xFFFF).i.toNat + (0 : Fin 16).val - 1 ≤ 4095) := by decide
theorem witness_DrawXorsSprite_fault :
    1 ≤ (2 : Fin 16).val ∧ 4095 < (State.reset.setI 0xFFF).i.toNat + (2 : Fin 16).val - 1 := by decide
/-- A touched cell: row 0 and column 0 for the pixel 4 columns right of column 60 (S6). -/
theorem witness_DrawXorsSprite_touched :
    0 < (1 : Fin 16).val ∧ 4 < 8 ∧ (0 : Fin 32).val = ((State.reset.setV 0 60).getV 1).toNat % 32 ∧
    (0 : Fin 64).val = (((State.reset.setV 0 60).getV 0).toNat + 4) % 64 := by decide
/-- A cell that is not touched (S6). -/
theorem witness_DrawXorsSprite_untouched :
    ∀ r < (1 : Fin 16).val, ∀ c < 8, (0 : Fin 32).val = (((State.reset.setV 0 60).getV 1).toNat + r) % 32 →
      (4 : Fin 64).val ≠ (((State.reset.setV 0 60).getV 0).toNat + c) % 64 := by decide
/-- A drawing with a lit touched cell, and one with none (T142, T145). -/
theorem witness_DrawXorsSprite_flag :
    after (putBytes 0x300 [0xF0] ((at200 0xD011).setI 0x300)) (fun t => (t.cell 0 0, t.getV 15)) = some (true, 1) ∧
    after (((at200 0xD011).setI 0x300).setV 15 1)
      (fun t => ((List.finRange 64).all fun c => !t.cell 0 c, t.getV 15)) = some (true, 0) := by decide

theorem witness_SkipIfKeyPressed_next : ((State.reset.setV 10 15).getV 10).toNat = (15 : Reg).val := by decide
theorem witness_SkipIfKeyPressed_fault : 15 < ((State.reset.setV 10 16).getV 10).toNat := by decide
theorem witness_SkipIfKeyNotPressed_next : ((State.reset.setV 10 0).getV 10).toNat = (0 : Reg).val := by decide
theorem witness_SkipIfKeyNotPressed_fault : 15 < ((State.reset.setV 10 16).getV 10).toNat := by decide
theorem witness_ReadDelayTimer : Fetches (at200 0xFA07) (.ldVxDt 10) := ⟨by decide, by decide, by decide⟩
theorem witness_SetDelayTimer : Fetches (at200 0xFA15) (.ldDtVx 10) := ⟨by decide, by decide, by decide⟩
theorem witness_SetSoundTimer : Fetches (at200 0xFA18) (.ldStVx 10) := ⟨by decide, by decide, by decide⟩

theorem witness_KeyWaitOrKeyNumber_pressed :
    ¬ noKey (pressing [15] State.reset).keys ∧ (pressing [15] State.reset).keyDown 15 = true := by decide
theorem witness_KeyWaitOrKeyNumber_none : noKey State.reset.keys := by decide
theorem witness_KeyWaitOrKeyNumber_waits :
    Fetches (at200 0xF10A) (.ldVxKey 1) ∧ noKey (presentedKeys (at200 0xF10A)) :=
  ⟨⟨by decide, by decide, by decide⟩, by decide⟩
theorem witness_KeyWaitOrKeyNumber_completes :
    Fetches (giving [7] 0 0 (at200 0xF10A)) (.ldVxKey 1) ∧ ¬ noKey (presentedKeys (giving [7] 0 0 (at200 0xF10A))) :=
  ⟨⟨by decide, by decide, by decide⟩, by decide⟩

theorem witness_RandomIsMaskedDraw :
    Fetches (giving [] 0xA7 0 (at200 0xCA0F)) (.rnd 10 0x0F) ∧ (giving [] 0xA7 0 (at200 0xCA0F)).pending ≠ [] :=
  ⟨⟨by decide, by decide, by decide⟩, by decide⟩
theorem witness_UnrecognizedIsNoOp_opcode : ∀ r ∈ opcodeTable, 0x5AB1#16 &&& r.mask ≠ r.pattern := by decide
theorem witness_UnrecognizedIsNoOp_cycle : Fetches (at200 0x5AB1) (.unrecognized 0x5AB1) :=
  ⟨by decide, by decide, by decide⟩
theorem witness_UnrecognizedIsNoOp_other :
    Fetches (at200 0x6A7F) (.ldImm 10 0x7F) ∧ (∀ w, Instr.ldImm 10 0x7F ≠ .unrecognized w) ∧
    isNext (step (at200 0x6A7F)) = true := ⟨⟨by decide, by decide, by decide⟩, nofun, by decide⟩
theorem witness_DecodeFollowsOpcodeTable :
    (⟨0xF00F#16, 0x8004#16⟩ : Row) ∈ opcodeTable ∧ 0x8AB4#16 &&& 0xF00F#16 = 0x8004#16 := by decide
theorem witness_DecodeEncodeRoundTrip :
    (Instr.shl 15 15).wf = true ∧ (Instr.unrecognized 0xFFFF#16).wf = true := by decide
theorem witness_FetchIsBigEndianAndChecked_next : (State.reset.setPc 4094).pc.toNat + 1 ≤ 4095 := by decide
theorem witness_FetchIsBigEndianAndChecked_fault :
    (State.reset.setPc 4095).fault = none ∧ 4095 < (State.reset.setPc 4095).pc.toNat + 1 := by decide
theorem witness_StepRunsDecodedInstruction :
    (at200 0x8AB4).fault = none ∧ (at200 0x8AB4).pc.toNat + 1 ≤ 4095 ∧
    decode [(at200 0x8AB4).byteAt (at200 0x8AB4).pc.toNat, (at200 0x8AB4).byteAt ((at200 0x8AB4).pc.toNat + 1)] =
      .ok (.addReg 10 11, []) := by decide
theorem witness_StepRunsDecodedInstruction_status :
    State.reset.out.status = .completed ∧ (waitForKey State.reset).out.status = .waitingForKey := by decide
/-- A cycle that gives a next state, and one that faults (`CycleNetEffectOnPc`, `RedrawSetOnlyByDisplay`,
`FaultIsPreciseAndSticky`). -/
theorem witness_step_next : isNext (step (at200 0x00E0)) = true ∧ isNext (step (at200 0x6A7F)) = true := by decide
theorem witness_cycle_call_faults :
    ∃ t, cycleCall { keys := State.reset.keys, rnd := 0, keyPick := 0 } (at200 0x00EE) =
      .faulted (.stackUnderflow 0) t := ⟨_, rfl⟩
/-- The premises of `HostSeesCyclesAndCells`: a presented input whose step goes on, one whose step faults, a program that
fits. -/
theorem witness_HostSeesCyclesAndCells :
    (at200 0x6A7F).fault = none ∧ isNext (step (present ⟨State.reset.keys, 254, 3⟩ (at200 0x6A7F))) = true ∧
    stopOf (present ⟨State.reset.keys, 0, 0⟩ (at200 0x00EE)) = some (.stackUnderflow 0) ∧
    ([0x12, 0x00] : List Byte).length ≤ 3584 := by decide
theorem witness_TimerStageCountsCompletedCycles :
    after (at200 0x6A7F) (fun t => t.out.status) = some .completed ∧
    after (at200 0xF10A) (fun t => t.out.status) = some .waitingForKey := by decide
theorem witness_FaultsAreThoseOfTheTable :
    expectedFault .ret State.reset = some (.stackUnderflow 0) ∧ expectedFault .ret (State.reset.setSp 1) = none ∧
    expectedFault (.drw 0 1 2) (State.reset.setI 0xFFF) = some (.memReadRange 4096) ∧
    expectedFault (.drw 0 1 1) (State.reset.setI 0xFFF) = none ∧
    expectedFault (.storeRegs 0) (State.reset.setI 0xFFFF) = none ∧
    expectedFault (.skp 10) (State.reset.setV 10 16) = some (.keyIndexRange 16) := by decide
theorem witness_LoadProgram_too_long : State.reset.fault = none ∧ 3584 < (List.replicate 3585 (0 : Byte)).length :=
  ⟨rfl, by rw [List.length_replicate]; decide⟩
theorem witness_LoadProgram_ok :
    State.reset.fault = none ∧ State.reset.mem.wf = true ∧ (List.replicate 3584 (0x12 : Byte)).length ≤ 3584 :=
  ⟨rfl, rfl, by rw [List.length_replicate]⟩
theorem witness_LoadProgram_faulted : (recordFault (.stackUnderflow 0) State.reset).fault ≠ none := by decide
theorem witness_ResetMeetsInvariant : ([0x12, 0x00] : List Byte).length ≤ 3584 := by decide
theorem witness_StepKeepsInvariant : (at200 0x2300).Inv ∧ isNext (step (at200 0x2300)) = true :=
  ⟨⟨by decide, by decide, by decide, by decide, by decide⟩, by decide⟩
/-- The same at the boundary of the invariant: `PC` = 4350 and a slot that holds 4096. -/
theorem witness_invariant_boundary : ((State.reset.setPc 4350).setSlot 15 4096).Inv :=
  ⟨by decide, by decide, by decide, by decide, by decide⟩
theorem witness_writes_only :
    isNext (exec (.subReg 10 11) State.reset) = true ∧ Part.mem ∉ writes (.subReg 10 11) ∧
    ¬ writesReg (.subReg 10 11) 11 := by
  refine ⟨by decide, by decide, ?_⟩
  simp only [writesReg]
  decide
theorem witness_CallThenReturnRestores :
    Fetches ((putBytes 0x300 [0x00, 0xEE] (at200 0x2300)).setSp 14) (.call 0x300) ∧
    ((putBytes 0x300 [0x00, 0xEE] (at200 0x2300)).setSp 14).sp.val ≠ 15 ∧ (0x300#12).toNat + 1 ≤ 4095 ∧
    decodeWord (opcodeAt ((putBytes 0x300 [0x00, 0xEE] (at200 0x2300)).setSp 14) (0x300#12).toNat) = .ret :=
  ⟨⟨by decide, by decide, by decide⟩, by decide, by decide, by decide⟩
theorem witness_StoreThenLoadRestores :
    (State.reset.setI 0xFFD).mem.wf = true ∧
    ((3 : Reg).val = 0 ∨ (State.reset.setI 0xFFD).i.toNat + (3 : Reg).val - 1 ≤ 4095) := by decide
/-- T124: the two bytes 0x12, 0x00 stored at 0x202 by F255 are the opcode fetched there. -/
theorem witness_StoresAreSeenByTheFetch :
    State.reset.mem.wf = true ∧ (State.reset.setI 0x202).i.toNat + (2 : Reg).val - 1 ≤ 4095 ∧
    (1 : Reg).val = (0 : Reg).val + 1 ∧ (1 : Reg).val < (2 : Reg).val ∧
    (State.reset.setPc 0x202).pc.toNat = (State.reset.setI 0x202).i.toNat + (0 : Reg).val := by decide
theorem witness_KeyWaitLasts :
    Fetches (giving [] 3 0 (at200 0xF10A)) (.ldVxKey 1) ∧ 1 ≤ (giving [] 3 0 (at200 0xF10A)).pending.length ∧
    ∀ h ∈ (giving [] 3 0 (at200 0xF10A)).pending.take 1, noKey h.keys :=
  ⟨⟨by decide, by decide, by decide⟩, by decide, by decide⟩
theorem witness_ParkedMachineStaysParked : Parked ((at200 0x1200).setDt 3) :=
  ⟨0x200, by decide, by decide, by decide, by decide⟩

end Sys2Proof.Tests
end

section
/-! The rules of the state's operations that the proofs below use: what each instruction that may fault has done when it
gives a next state, and which pieces of state an update keeps. -/
namespace Sys2Proof.Machine

/-! ### The instructions that may fault or wait, when they give a next state -/

theorem execRet_eq_next {s t : State} :
    execRet s = .next t ↔ s.sp ≠ 0 ∧ t = (s.setSp (s.sp - 1)).setPc (s.getSlot s.sp) := by
  by_cases h : s.sp = 0 <;> simp [execRet, pop, raise, h, eq_comm]

theorem execCall_eq_next {nnn : BitVec 12} {s t : State} :
    execCall nnn s = .next t ↔
      s.sp ≠ 15 ∧ t = ((s.setSp (s.sp + 1)).setSlot (s.sp + 1) s.pc).setPc (addrImm nnn) := by
  by_cases h : s.sp = 15 <;> simp [execCall, push, raise, h, eq_comm]

/-- A drawing that completes changes the framebuffer, `VF` and `REDRAW` only (43_display.md R111). -/
theorem eq_of_execDrw_eq_next {x y : Reg} {n : Fin 16} {s t : State} (h : execDrw x y n s = .next t) :
    ∃ f b, t = ((s.setFb f).setV regF b).setRedraw true := by
  unfold execDrw at h
  split at h
  · cases h
  · exact ⟨_, _, (Host.Outcome.next.inj h).symm⟩

theorem execLdBcd_eq_next {x : Reg} {s t : State} :
    execLdBcd x s = .next t ↔
      s.i.toNat + 3 ≤ 4096 ∧ t = s.setMem (writeBytes s.mem s.i.toNat (bcdDigits (s.getV x))) := by
  simp [execLdBcd, complete_eq_next, memWrite_ok_iff, effAddr, bcdDigits]

theorem execStoreRegs_eq_next {x : Reg} {s t : State} :
    execStoreRegs x s = .next t ↔
      (x.val = 0 ∨ s.i.toNat + x.val ≤ 4096) ∧ t = s.setMem (writeBytes s.mem s.i.toNat (regsBelow s x)) := by
  simp only [execStoreRegs, complete_eq_next, memWrite_ok_iff, effAddr, length_regsBelow, Nat.add_zero]

theorem execLoadRegs_eq_next {x : Reg} {s t : State} :
    execLoadRegs x s = .next t ↔
      (x.val = 0 ∨ s.i.toNat + x.val ≤ 4096) ∧ t = setRegsFrom s 0 (readBytes s.mem s.i.toNat x.val) := by
  by_cases h : x.val = 0 ∨ effAddr s 0 + x.val ≤ 4096
  · rw [execLoadRegs, memRead_eq_ok h, Host.Outcome.next.injEq, eq_comm]
    exact (and_iff_right h).symm
  · rw [execLoadRegs, memRead_eq_error (by omega)]
    exact ⟨fun he => (nomatch he), fun he => absurd he.1 h⟩

theorem execSkp_eq_next {x : Reg} {s t : State} :
    execSkp x s = .next t ↔ ∃ k, keyIndex (s.getV x) = .ok k ∧ t = skipIf (s.keyDown k) s := by
  unfold execSkp
  cases keyIndex (s.getV x) <;> simp [raise, eq_comm]

theorem execSknp_eq_next {x : Reg} {s t : State} :
    execSknp x s = .next t ↔ ∃ k, keyIndex (s.getV x) = .ok k ∧ t = skipIf (!s.keyDown k) s := by
  unfold execSknp
  cases keyIndex (s.getV x) <;> simp [raise, eq_comm]

/-- FX0A waits, or a key's number is written (44_keypad_timers.md R123). -/
theorem eq_of_execLdVxKey_eq_next {x : Reg} {s t : State} (h : execLdVxKey x s = .next t) :
    t = waitForKey s ∨ ∃ b, t = s.setV x b := by
  unfold execLdVxKey at h
  split at h
  · exact .inl (Host.Outcome.next.inj h).symm
  · exact .inr ⟨_, (Host.Outcome.next.inj h).symm⟩

/-! ### Which pieces of state an update keeps -/

/-- The field is the same in both states: `Part.same`, with memory, the stack, the framebuffer and the keys compared as
they are held. -/
def Part.Kept (s t : State) : Part → Prop
  | .i => t.i = s.i
  | .pc => t.pc = s.pc
  | .sp => t.sp = s.sp
  | .stack => t.stack = s.stack
  | .dt => t.dt = s.dt
  | .st => t.st = s.st
  | .mem => t.mem = s.mem
  | .fb => t.fb = s.fb
  | .redraw => t.redraw = s.redraw
  | .keys => t.keys = s.keys
  | .fault => t.fault = s.fault
  | .rnd => t.rnd = s.rnd
  | .keyPick => t.keyPick = s.keyPick
  | .pending => t.pending = s.pending
  | .cycle => t.cycle = s.cycle
  | .out => t.out = s.out

section
variable {p : Part} {s t : State}

theorem Part.Kept.same (h : p.Kept s t) : p.same s t := by
  cases p with
  | stack => exact fun k => congrArg (fun v : Vector Word 16 => v[k]) h
  | mem => exact fun a => congrArg (readByte · a) h
  | fb => exact fun row col => congrArg (cellOf · row col) h
  | keys => exact fun k => congrArg (fun v : Keys => v[k]) h
  | _ => exact h

@[simp] theorem Part.kept_refl : p.Kept s s := by
  cases p <;> rfl

@[simp] theorem Part.kept_v (v : Vector Byte 16) : p.Kept s { t with v := v } ↔ p.Kept s t := by
  cases p <;> rfl

@[simp] theorem Part.kept_setV (r : Reg) (b : Byte) : p.Kept s (t.setV r b) ↔ p.Kept s t :=
  Part.kept_v _

@[simp] theorem Part.kept_setI (h : p ≠ .i) (w : Word) : p.Kept s (t.setI w) ↔ p.Kept s t := by
  cases p <;> trivial

@[simp] theorem Part.kept_setPc (h : p ≠ .pc) (w : Word) : p.Kept s (t.setPc w) ↔ p.Kept s t := by
  cases p <;> trivial

@[simp] theorem Part.kept_setSp (h : p ≠ .sp) (k : Fin 16) : p.Kept s (t.setSp k) ↔ p.Kept s t := by
  cases p <;> trivial

@[simp] theorem Part.kept_setSlot (h : p ≠ .stack) (k : Fin 16) (w : Word) :
    p.Kept s (t.setSlot k w) ↔ p.Kept s t := by
  cases p <;> trivial

@[simp] theorem Part.kept_setDt (h : p ≠ .dt) (b : Byte) : p.Kept s (t.setDt b) ↔ p.Kept s t := by
  cases p <;> trivial

@[simp] theorem Part.kept_setSt (h : p ≠ .st) (b : Byte) : p.Kept s (t.setSt b) ↔ p.Kept s t := by
  cases p <;> trivial

@[simp] theorem Part.kept_setMem (h : p ≠ .mem) (m : Memory) : p.Kept s (t.setMem m) ↔ p.Kept s t := by
  cases p <;> trivial

@[simp] theorem Part.kept_setFb (h : p ≠ .fb) (f : Framebuffer) : p.Kept s (t.setFb f) ↔ p.Kept s t := by
  cases p <;> trivial

@[simp] theorem Part.kept_setRedraw (h : p ≠ .redraw) (b : Bool) : p.Kept s (t.setRedraw b) ↔ p.Kept s t := by
  cases p <;> trivial

@[simp] theorem Part.kept_setOut (h : p ≠ .out) (o : CycleOutput) : p.Kept s (t.setOut o) ↔ p.Kept s t := by
  cases p <;> trivial

@[simp] theorem Part.kept_setRegsFrom (k : Nat) (bs : List Byte) :
    p.Kept s (setRegsFrom t k bs) ↔ p.Kept s t := by
  obtain ⟨v, hv⟩ := setRegsFrom_eq t k bs
  rw [hv, Part.kept_v]

end

/-- The frame of an instruction: no general register changes but those the spec lets it write (10_state.md R10, R11), and
no piece of state but those of its row in the table of 10_state.md section 1. -/
theorem exec_frame {i : Instr} {s t : State} (h : exec i s = .next t) :
    (∀ r, ¬ writesReg i r → t.getV r = s.getV r) ∧ ∀ p, p ∉ writes i → p.Kept s t := by
  cases i with
  | ret =>
    obtain ⟨-, rfl⟩ := execRet_eq_next.1 h
    simp +contextual [writes]
  | call nnn =>
    obtain ⟨-, rfl⟩ := execCall_eq_next.1 h
    simp +contextual [writes]
  | drw x y n =>
    obtain ⟨f, b, rfl⟩ := eq_of_execDrw_eq_next h
    simp +contextual [writesReg, writes]
  | skp x =>
    obtain ⟨k, -, rfl⟩ := execSkp_eq_next.1 h
    simp +contextual [writes, skipIf_eq]
  | sknp x =>
    obtain ⟨k, -, rfl⟩ := execSknp_eq_next.1 h
    simp +contextual [writes, skipIf_eq]
  | ldVxKey x =>
    obtain rfl | ⟨b, rfl⟩ := eq_of_execLdVxKey_eq_next h
    · simp +contextual [writes, waitForKey]
    · simp +contextual [writesReg]
  | ldBcd x =>
    obtain ⟨-, rfl⟩ := execLdBcd_eq_next.1 h
    simp +contextual [writes]
  | storeRegs x =>
    obtain ⟨-, rfl⟩ := execStoreRegs_eq_next.1 h
    simp +contextual [writes]
  | loadRegs x =>
    obtain ⟨-, rfl⟩ := execLoadRegs_eq_next.1 h
    simp +contextual [writesReg, getV_setRegsFrom]
  | _ =>
    -- The instructions that complete in every state: the next state is a chain of updates of what they may write.
    obtain rfl := Host.Outcome.next.inj h
    simp +contextual [writesReg, writes, skipIf_eq, flagThen, diagnose]

/-- A piece of state that an instruction does not write is kept by it. -/
theorem exec_keeps {i : Instr} {s t : State} (h : exec i s = .next t) (p : Part) (hp : p ∉ writes i) : p.Kept s t :=
  (exec_frame h).2 p hp

end Sys2Proof.Machine
end

section
/-! The invariant of every run (10_state.md R12, R15, 20_memory.md R30), taken apart into memory, the stack and the
program counter: what each operation of the state needs to keep it. -/
namespace Sys2Proof.Machine

/-- A memory in its canonical form that lists only addresses that exist. -/
def Memory.Valid (m : Memory) : Prop := m.wf = true ∧ ∀ c ∈ m, c.1 < Config.memSize

/-- Slot 0 was never populated, and no slot holds more than the largest return address. -/
def State.StackValid (s : State) : Prop := s.getSlot 0 = 0 ∧ ∀ k, (s.getSlot k).toNat ≤ 4096

theorem State.inv_iff {s : State} : s.Inv ↔ Memory.Valid s.mem ∧ s.StackValid ∧ s.pc.toNat ≤ 4350 := by
  simp only [State.Inv, Memory.Valid, State.StackValid, and_assoc]

/-- The invariant speaks of memory, the stack and `PC` only. -/
theorem State.Inv.congr {s t : State} (hs : s.Inv) (hm : t.mem = s.mem) (hst : t.stack = s.stack)
    (hpc : t.pc = s.pc) : t.Inv := by
  simpa only [State.Inv, State.getSlot, hm, hst, hpc] using hs

theorem Memory.valid_nil : Memory.Valid [] := ⟨rfl, by simp⟩

/-- A write that passed the range check keeps memory valid. -/
theorem Memory.Valid.writeBytes {m : Memory} {a : Nat} {bs : List Byte} (h : m.Valid)
    (hr : bs.length = 0 ∨ a + bs.length ≤ 4096) : Memory.Valid (writeBytes m a bs) := by
  refine ⟨wf_writeBytes h.1, fun c hc => ?_⟩
  obtain hin | hold := mem_writeBytes hc
  · simp only [Config.memSize]
    omega
  · exact h.2 c hold

/-- A value of at most 4096 in a slot other than slot 0 keeps the stack valid. -/
theorem State.StackValid.setSlot {s : State} {k : Fin 16} {w : Word} (h : s.StackValid) (hk : k ≠ 0)
    (hw : w.toNat ≤ 4096) : (s.setSlot k w).StackValid := by
  refine ⟨by simpa [hk.symm] using h.1, fun q => ?_⟩
  rw [State.getSlot_setSlot]
  split
  · exact hw
  · exact h.2 q

/-- The slot a push uses is never slot 0, since `SP` does not wrap. -/
theorem sp_add_one_ne_zero {k : Fin 16} (h : k ≠ 15) : k + 1 ≠ 0 := by
  revert k
  decide

/-! ### What stage 4 keeps -/

section
variable {i : Instr} {s t : State} (h : exec i s = .next t)
include h

theorem exec_keeps_memory_valid (hs : Memory.Valid s.mem) : Memory.Valid t.mem := by
  cases i with
  | ldBcd x =>
    obtain ⟨hr, rfl⟩ := execLdBcd_eq_next.1 h
    exact hs.writeBytes (.inr hr)
  | storeRegs x =>
    obtain ⟨hr, rfl⟩ := execStoreRegs_eq_next.1 h
    exact hs.writeBytes (by rwa [length_regsBelow])
  | _ =>
    have hm : t.mem = s.mem := exec_keeps h .mem (by simp [writes])
    rwa [hm]

/-- Only a call writes a slot, and it stores `PC`. -/
theorem exec_keeps_stackValid (hs : s.StackValid) (hpc : s.pc.toNat ≤ 4096) : t.StackValid := by
  cases i with
  | call nnn =>
    obtain ⟨hsp, rfl⟩ := execCall_eq_next.1 h
    exact State.StackValid.setSlot (s := s.setSp (s.sp + 1)) hs (sp_add_one_ne_zero hsp) hpc
  | _ =>
    have hst : t.stack = s.stack := exec_keeps h .stack (by simp [writes])
    simpa only [State.StackValid, State.getSlot, hst] using hs

end

theorem skipIf_pc_le {s : State} (c : Bool) (hpc : s.pc.toNat ≤ 4096) : (skipIf c s).pc.toNat ≤ 4350 := by
  rw [skipIf_eq, State.setPc_pc]
  split <;> bv_omega

/-- `PC` after stage 4, where stage 2 has added 2 to the address of a fetch: at most 4098 by a skip, 4096 by a return,
4095 by a jump or a call, and 4095 + 255 by BNNN (10_state.md R12). -/
theorem exec_pc_le {i : Instr} {s t : State} (h : exec i s = .next t) (hs : s.StackValid)
    (hlo : 2 ≤ s.pc.toNat) (hpc : s.pc.toNat ≤ 4096) : t.pc.toNat ≤ 4350 := by
  cases i with
  | ret =>
    obtain ⟨-, rfl⟩ := execRet_eq_next.1 h
    exact (hs.2 s.sp).trans (by decide)
  | jp nnn =>
    obtain rfl := Host.Outcome.next.inj h
    rw [State.setPc_pc, toNat_addrImm]
    omega
  | call nnn =>
    obtain ⟨-, rfl⟩ := execCall_eq_next.1 h
    rw [State.setPc_pc, toNat_addrImm]
    omega
  | jpV0 nnn =>
    obtain rfl := Host.Outcome.next.inj h
    rw [State.setPc_pc, BitVec.toNat_add, toNat_addrImm, toNat_zextByte]
    omega
  | ldVxKey x =>
    obtain rfl | ⟨b, rfl⟩ := eq_of_execLdVxKey_eq_next h
    · have hown : (waitForKey s).pc = s.pc - 2 := rfl
      bv_omega
    · exact hpc.trans (by decide)
  | skp x =>
    obtain ⟨k, -, rfl⟩ := execSkp_eq_next.1 h
    exact skipIf_pc_le _ hpc
  | sknp x =>
    obtain ⟨k, -, rfl⟩ := execSknp_eq_next.1 h
    exact skipIf_pc_le _ hpc
  | seImm | sneImm | seReg | sneReg =>
    obtain rfl := Host.Outcome.next.inj h
    exact skipIf_pc_le _ hpc
  | _ =>
    have hkept : t.pc = s.pc := exec_keeps h .pc (by simp [writes])
    rw [hkept]
    omega

/-! ### What the other stages keep -/

/-- Stages 1 to 3: where the fetch answers, `PC` goes on to a value from 2 to 4096. -/
theorem beginCycle_pc_of_fetch {s : State} {w : Word} (h : fetch s = .ok w) :
    (beginCycle s).pc.toNat = s.pc.toNat + 2 ∧ s.pc.toNat + 2 ≤ 4096 := by
  obtain ⟨hpc, -⟩ := fetch_eq_ok.1 h
  rw [beginCycle_pc]
  bv_omega

theorem State.Inv.endCycle {s : State} (hs : s.Inv) : (endCycle s).Inv := by
  obtain ⟨d, b, he⟩ := endCycle_eq s
  rw [he]
  exact hs.congr rfl rfl rfl

/-- Stage 4, run from a state as stages 1 to 3 leave it, keeps the invariant. -/
theorem exec_inv {i : Instr} {s t : State} (h : exec i s = .next t) (hm : Memory.Valid s.mem) (hst : s.StackValid)
    (hlo : 2 ≤ s.pc.toNat) (hpc : s.pc.toNat ≤ 4096) : t.Inv :=
  State.inv_iff.2
    ⟨exec_keeps_memory_valid h hm, exec_keeps_stackValid h hst hpc, exec_pc_le h hst hlo hpc⟩

end Sys2Proof.Machine
end

section
/-! What the cycle does with `REDRAW` (10_state.md R18), and the state after reset (R25). -/
namespace Sys2Proof.Machine

/-- The fetch reads the opcode at `PC`. -/
theorem eq_opcodeAt_of_fetch {s : State} {w : Word} (h : fetch s = .ok w) : w = opcodeAt s s.pc.toNat :=
  (fetch_eq_ok.1 h).2

/-- Stage 4 sets `REDRAW`, which stage 3 cleared, exactly where the instruction is one of the display's. -/
theorem exec_redraw_iff {i : Instr} {s t : State} (h : exec i s = .next t) (hs : s.redraw = false) :
    t.redraw = true ↔ i = .cls ∨ ∃ x y n, i = .drw x y n := by
  cases i with
  | cls =>
    obtain rfl := Host.Outcome.next.inj h
    simp
  | drw x y n =>
    obtain ⟨f, b, rfl⟩ := eq_of_execDrw_eq_next h
    simp
  | _ =>
    have hkept : t.redraw = s.redraw := exec_keeps h .redraw (by simp [writes])
    simp [hkept, hs]

@[simp] theorem endCycle_redraw (s : State) : (endCycle s).redraw = s.redraw := by
  obtain ⟨d, b, he⟩ := endCycle_eq s
  rw [he]

/-- The font stands at addresses 0 to 79 after reset. -/
theorem reset_byteAt_font {a : Nat} (h : a < Config.font.length) : State.reset.byteAt a = Config.font[a] :=
  List.getD_eq_getElem _ _ h

/-- Every byte above the font is 0 after reset. -/
theorem reset_byteAt_above_font {a : Nat} (h : Config.font.length ≤ a) : State.reset.byteAt a = 0 :=
  List.getD_eq_default _ _ h

theorem reset_stackValid : State.reset.StackValid := ⟨by decide, by decide⟩

theorem reset_pc_le : State.reset.pc.toNat ≤ 4350 := by decide

end Sys2Proof.Machine
end

section
/-! The statements of 10_state.md. -/
namespace Sys2Proof.Machine

/-- Settles O52, stage by stage: each piece of the invariant is kept by stage 4, and by the stages around it. -/
theorem stepKeepsInvariant : Obligations.StepKeepsInvariant := by
  intro s t hs hstep
  obtain ⟨-, w, hfetch, u, hexec, rfl⟩ := step_eq_next.1 hstep
  obtain ⟨hm, hst, -⟩ := State.inv_iff.1 hs
  obtain ⟨hpc, hle⟩ := beginCycle_pc_of_fetch hfetch
  refine (exec_inv hexec ?_ ?_ (by omega) (by omega)).endCycle
  · rwa [beginCycle_mem]
  · simpa only [State.StackValid, beginCycle_getSlot] using hst

/-- Settles O46: stage 3 clears `REDRAW`, stage 4 sets it for the two display instructions only, and the timer stage
keeps it. -/
theorem redrawSetOnlyByDisplay : Obligations.RedrawSetOnlyByDisplay := by
  intro s t hstep
  obtain ⟨-, w, hfetch, u, hexec, rfl⟩ := step_eq_next.1 hstep
  obtain rfl := eq_opcodeAt_of_fetch hfetch
  rw [endCycle_redraw]
  exact exec_redraw_iff hexec (beginCycle_redraw s)

/-- Settles O54, by the frame of each instruction. -/
theorem onlyNamedRegistersChange : Obligations.OnlyNamedRegistersChange :=
  fun _ _ _ r h hr => (exec_frame h).1 r hr

/-- Settles O50, piece by piece. -/
theorem resetValues : Obligations.ResetValues :=
  ⟨by decide, rfl, rfl, rfl, by decide, rfl, rfl, by simp [State.reset, State.cell, cellOf], rfl, by decide, rfl, rfl,
    fun _ h => reset_byteAt_font h, fun _ h _ => reset_byteAt_above_font h, fun _ => rfl⟩

/-- Settles O51: a program that fits ends at address 4095 at the latest, and the rest is as after reset. -/
theorem resetMeetsInvariant : Obligations.ResetMeetsInvariant := by
  refine ⟨State.inv_iff.2 ⟨Memory.valid_nil, reset_stackValid, reset_pc_le⟩, fun program inputs hlen => ?_⟩
  refine State.inv_iff.2 ⟨Memory.valid_nil.writeBytes (.inr ?_), reset_stackValid, reset_pc_le⟩
  simp only [Config.progBase]
  omega

end Sys2Proof.Machine
end

section
/-! Memory behind a write of several bytes, read at an offset from its first address (20_memory.md R37), and what the
host's load and a faulting fetch answer (R35, R46). -/
namespace Sys2Proof.Machine

/-! ### A write of several bytes -/

section
variable {m : Memory} {a : Nat} {bs : List Byte} (h : m.wf = true)
include h

/-- Byte `k` of a write stands at offset `k`. -/
theorem readByte_writeBytes_add {k : Nat} (hk : k < bs.length) :
    readByte (writeBytes m a bs) (a + k) = bs[k] := by
  rw [readByte_writeBytes h, dif_pos (by omega)]
  simp only [Nat.add_sub_cancel_left]

/-- A write changes no byte outside its range. -/
theorem readByte_writeBytes_of_outside {c : Nat} (hc : c < a ∨ a + bs.length ≤ c) :
    readByte (writeBytes m a bs) c = readByte m c := by
  rw [readByte_writeBytes h, dif_neg (by omega)]

end

/-- The block that FX55 writes holds `V[k]` at offset `k` (42_index_memory.md R104). -/
theorem readByte_writeBytes_regsBelow {s : State} {x k : Reg} (h : s.mem.wf = true) (a : Nat) (hk : k.val < x.val) :
    readByte (writeBytes s.mem a (regsBelow s x)) (a + k.val) = s.getV k := by
  rw [readByte_writeBytes_add h (by rwa [length_regsBelow]), getElem_regsBelow]

/-- A change of memory changes nothing else. -/
theorem frame_setMem (s : State) (m : Memory) : Frame [] [.mem] s (s.setMem m) := by
  refine ⟨fun _ _ => rfl, fun p hp => Part.Kept.same ?_⟩
  rw [Part.kept_setMem (List.ne_of_not_mem_cons hp)]
  exact Part.kept_refl

/-! ### What `LoadProgram` answers (R46) -/

section
variable {bytes : List Byte} {s : State}

/-- A faulted machine accepts no load, of whatever length. -/
theorem loadProgram_of_fault (h : s.fault ≠ none) : loadProgram bytes s = .notAccepted :=
  if_pos (Option.isSome_iff_ne_none.2 h)

theorem loadProgram_of_fault_none (h : s.fault = none) :
    loadProgram bytes s = if 3584 < bytes.length then .tooLong else .ok (s.setMem (writeBytes s.mem 512 bytes)) := by
  rw [loadProgram, h]
  rfl

end

/-! ### The fetch (R35) -/

/-- A cycle whose fetch faults ends in that fault. -/
theorem step_of_fetch_error {s : State} {f : Fault} (hs : s.fault = none) (h : fetch s = .error f) :
    step s = .fault f := by
  rw [step, hs]
  simp only [h]

end Sys2Proof.Machine
end

section
/-! The statements of 20_memory.md. -/
namespace Sys2Proof.Machine

/-- Settles O49: the length is tested first, and a load that is accepted is one write of the image at 512. -/
theorem loadProgramWritesOnlyTheImage : Obligations.LoadProgramWritesOnlyTheImage := by
  refine ⟨fun bytes s hs hlen => ?_, fun bytes s hs hwf hlen => ?_, fun bytes s hs => loadProgram_of_fault hs⟩
  · rw [loadProgram_of_fault_none hs, if_pos hlen]
  · refine ⟨s.setMem (writeBytes s.mem 512 bytes), ?_, fun k hk => ?_, fun a ha => ?_, frame_setMem _ _⟩
    · rw [loadProgram_of_fault_none hs, if_neg (by omega)]
    · exact readByte_writeBytes_add hwf hk
    · exact readByte_writeBytes_of_outside hwf ha

/-- Settles O57: the fetch reads offsets `k` and `k + 1` of the block that FX55 wrote. -/
theorem storesAreSeenByTheFetch : Obligations.StoresAreSeenByTheFetch := by
  intro x k l s hwf hrange hl hlx
  refine ⟨_, execStoreRegs_eq_next.2 ⟨.inr (by omega), rfl⟩, fun u hmem hpc => ?_⟩
  have hhi : u.byteAt u.pc.toNat = s.getV k := by
    rw [State.byteAt, hmem, hpc]
    exact readByte_writeBytes_regsBelow hwf _ (by omega)
  have hlo : u.byteAt (u.pc.toNat + 1) = s.getV l := by
    rw [State.byteAt, hmem, hpc, Nat.add_assoc, ← hl]
    exact readByte_writeBytes_regsBelow hwf _ hlx
  refine ⟨_, fetch_eq_ok.2 ⟨by omega, rfl⟩, ?_⟩
  rw [toNat_wordOfBytes, hhi, hlo]

/-- Settles O42, by the two answers of the fetch. -/
theorem fetchIsBigEndianAndChecked : Obligations.FetchIsBigEndianAndChecked :=
  ⟨fun _ hpc => ⟨_, fetch_eq_ok.2 ⟨by omega, rfl⟩, toNat_wordOfBytes _ _⟩,
    fun _ hs hpc => step_of_fetch_error hs (fetch_eq_error.2 ⟨by omega, rfl⟩)⟩

end Sys2Proof.Machine
end

section
/-! The decoder and the encoder (30_encoding.md R51, R53 to R56): an opcode is the encoding of what it decodes to, so an
opcode that no row selects decodes to `unrecognized`. -/
namespace Sys2Proof

/-! ### An opcode whose literal digits are known -/

section
variable {w : Word} {op : BitVec 4} (hop : fieldOp w = op)
include hop

theorem encNnn_of_fieldOp : encNnn op (fieldNnn w) = w := by
  rw [← hop, encNnn_fields]

theorem encXnn_of_fieldOp : encXnn op (fieldX w) (fieldNn w) = w := by
  rw [← hop, encXnn_fields]

theorem encXnn_of_literal {nn : Byte} (hnn : fieldNn w = nn) : encXnn op (fieldX w) nn = w := by
  rw [← hnn, encXnn_of_fieldOp hop]

theorem encXyn_of_fieldOp : encXyn op (fieldX w) (fieldY w) (fieldN w) = w := by
  rw [← hop, encXyn_fields]

theorem encXyn_of_literal {n : Fin 16} (hn : (fieldN w).val = n.val) : encXyn op (fieldX w) (fieldY w) n = w := by
  rw [← Fin.ext hn, encXyn_of_fieldOp hop]

end

/-! ### Each leading digit that has literal digits after it -/

section
variable {w : Word}

theorem encodeWord_decode0 : encodeWord (decode0 w) = w := by
  unfold decode0
  split_ifs with hcls hret
  · exact hcls.symm
  · exact hret.symm
  · rfl

theorem encodeWord_decode5 (hop : fieldOp w = 0x5#4) : encodeWord (decode5 w) = w := by
  unfold decode5
  split_ifs with hn
  · exact encXyn_of_literal hop (congrArg Fin.val hn)
  · rfl

theorem encodeWord_decode8 (hop : fieldOp w = 0x8#4) : encodeWord (decode8 w) = w := by
  unfold decode8
  split
  case h_10 => rfl
  all_goals exact encXyn_of_literal hop ‹_›

theorem encodeWord_decode9 (hop : fieldOp w = 0x9#4) : encodeWord (decode9 w) = w := by
  unfold decode9
  split_ifs with hn
  · exact encXyn_of_literal hop (congrArg Fin.val hn)
  · rfl

theorem encodeWord_decodeE (hop : fieldOp w = 0xE#4) : encodeWord (decodeE w) = w := by
  unfold decodeE
  split_ifs with hskp hsknp
  · exact encXnn_of_literal hop hskp
  · exact encXnn_of_literal hop hsknp
  · rfl

theorem encodeWord_decodeF (hop : fieldOp w = 0xF#4) : encodeWord (decodeF w) = w := by
  unfold decodeF
  split_ifs
  iterate 9 exact encXnn_of_literal hop ‹_›
  rfl

end

/-- An opcode is the encoding of the instruction it decodes to, by its leading digit. -/
theorem encodeWord_decodeWord (w : Word) : encodeWord (decodeWord w) = w := by
  have digit {op : BitVec 4} (h : (fieldOp w).toNat = op.toNat) : fieldOp w = op := BitVec.eq_of_toNat_eq h
  unfold decodeWord
  split
  next => exact encodeWord_decode0
  next h => exact encNnn_of_fieldOp (digit h)
  next h => exact encNnn_of_fieldOp (digit h)
  next h => exact encXnn_of_fieldOp (digit h)
  next h => exact encXnn_of_fieldOp (digit h)
  next h => exact encodeWord_decode5 (digit h)
  next h => exact encXnn_of_fieldOp (digit h)
  next h => exact encXnn_of_fieldOp (digit h)
  next h => exact encodeWord_decode8 (digit h)
  next h => exact encodeWord_decode9 (digit h)
  next h => exact encNnn_of_fieldOp (digit h)
  next h => exact encNnn_of_fieldOp (digit h)
  next h => exact encXnn_of_fieldOp (digit h)
  next h => exact encXyn_of_fieldOp (digit h)
  next h => exact encodeWord_decodeE (digit h)
  next =>
    simp only [imp_false] at *
    exact encodeWord_decodeF (by bv_omega)

open Laws in
/-- Every instruction but the fallback has a row in the opcode map, and that row selects its opcode (R55). -/
theorem inTable : ∀ i : Instr, InTable.Statement i
  | .cls => InTable.cls
  | .ret => InTable.ret
  | .jp nnn => InTable.jp nnn
  | .call nnn => InTable.call nnn
  | .seImm x nn => InTable.seImm x nn
  | .sneImm x nn => InTable.sneImm x nn
  | .seReg x y => InTable.seReg x y
  | .ldImm x nn => InTable.ldImm x nn
  | .addImm x nn => InTable.addImm x nn
  | .ldReg x y => InTable.ldReg x y
  | .orReg x y => InTable.orReg x y
  | .andReg x y => InTable.andReg x y
  | .xorReg x y => InTable.xorReg x y
  | .addReg x y => InTable.addReg x y
  | .subReg x y => InTable.subReg x y
  | .shr x y => InTable.shr x y
  | .subnReg x y => InTable.subnReg x y
  | .shl x y => InTable.shl x y
  | .sneReg x y => InTable.sneReg x y
  | .ldI nnn => InTable.ldI nnn
  | .jpV0 nnn => InTable.jpV0 nnn
  | .rnd x nn => InTable.rnd x nn
  | .drw x y n => InTable.drw x y n
  | .skp x => InTable.skp x
  | .sknp x => InTable.sknp x
  | .ldVxDt x => InTable.ldVxDt x
  | .ldVxKey x => InTable.ldVxKey x
  | .ldDtVx x => InTable.ldDtVx x
  | .ldStVx x => InTable.ldStVx x
  | .addI x => InTable.addI x
  | .ldFont x => InTable.ldFont x
  | .ldBcd x => InTable.ldBcd x
  | .storeRegs x => InTable.storeRegs x
  | .loadRegs x => InTable.loadRegs x
  | .unrecognized opcode => InTable.unrecognized opcode

/-- The row of the instruction that an opcode decodes to is in the opcode map and selects the opcode (R54, R55). -/
theorem row_decodeWord {w : Word} {r : Row} (h : (decodeWord w).row = some r) :
    r ∈ opcodeTable ∧ w &&& r.mask = r.pattern := by
  have hin := inTable (decodeWord w)
  rw [Laws.InTable.Statement, h, encodeWord_decodeWord] at hin
  exact ⟨hin.1, beq_iff_eq.1 hin.2⟩

/-- The fallback carries the opcode it was decoded from (R56). -/
theorem decodeWord_of_row_eq_none {w : Word} (h : (decodeWord w).row = none) : decodeWord w = .unrecognized w := by
  have hin := inTable (decodeWord w)
  rw [Laws.InTable.Statement, h] at hin
  obtain ⟨opcode, hdec⟩ := hin
  have henc : encodeWord (.unrecognized opcode) = w := hdec ▸ encodeWord_decodeWord w
  rw [hdec, ← henc]
  rfl

/-- An opcode that no row selects decodes to `unrecognized` (R56). -/
theorem decodeWord_of_no_row {w : Word} (h : ∀ r ∈ opcodeTable, w &&& r.mask ≠ r.pattern) :
    decodeWord w = .unrecognized w := by
  refine decodeWord_of_row_eq_none (Option.eq_none_iff_forall_ne_some.2 fun r hr => ?_)
  obtain ⟨hmem, hsel⟩ := row_decodeWord hr
  exact h r hmem hsel

end Sys2Proof
end

section
/-! The stages of a cycle around the instruction (30_encoding.md R60): what each of them keeps, and what the whole cycle
of a known instruction is. -/
namespace Sys2Proof.Machine

theorem Part.Kept.trans {p : Part} {s t u : State} (hst : p.Kept s t) (htu : p.Kept t u) : p.Kept s u := by
  cases p <;> exact Eq.trans htu hst

/-! ### Stages 1 to 3 -/

theorem beginCycle_keeps (s : State) {p : Part} (hp : p ∉ [.pc, .redraw] ++ cycleParts) :
    p.Kept s (beginCycle s) := by
  rw [beginCycle_eq]
  cases p with
  | pc | redraw | keys | rnd | keyPick | pending | cycle | out => simp [cycleParts] at hp
  | _ => rfl

/-- The keys of a cycle are those the host presents for it (10_state.md R19). -/
theorem beginCycle_presentedKeys (s : State) : (beginCycle s).keys = presentedKeys s :=
  (beginCycle_keys s).trans (takeInput_keys s)

/-! ### Stage 5 -/

section
variable (s : State)

@[simp] theorem timerStage_dt : (timerStage s).dt = countDown s.dt := rfl
@[simp] theorem timerStage_st : (timerStage s).st = countDown s.st := rfl
@[simp] theorem timerStage_out : (timerStage s).out = { s.out with beep := s.st == 1 } := rfl

end

@[simp] theorem endCycle_pc (s : State) : (endCycle s).pc = s.pc := by
  obtain ⟨d, b, he⟩ := endCycle_eq s
  rw [he]

@[simp] theorem endCycle_getV (s : State) (r : Reg) : (endCycle s).getV r = s.getV r := by
  obtain ⟨d, b, he⟩ := endCycle_eq s
  rw [he]
  rfl

/-- The end of a cycle emits no diagnostic of its own. -/
@[simp] theorem endCycle_diag (s : State) : (endCycle s).out.diag = s.out.diag := by
  unfold endCycle
  split <;> rfl

theorem endCycle_keeps (s : State) {p : Part} (hp : p ∉ [.dt, .st, .out]) : p.Kept s (endCycle s) := by
  obtain ⟨d, b, he⟩ := endCycle_eq s
  rw [he]
  cases p with
  | dt | st | out => simp at hp
  | _ => rfl

/-- The timers and the outputs after a completed cycle (60_exceptions.md R143, R144). -/
theorem endCycle_of_completed {u : State} (h : u.out.status = .completed) :
    (endCycle u).dt.toNat = u.dt.toNat - 1 ∧ (endCycle u).st.toNat = u.st.toNat - 1 ∧
      ((endCycle u).out.beep = true ↔ u.st.toNat = 1) ∧ (endCycle u).out.status = .completed := by
  rw [endCycle_completed h]
  refine ⟨by rw [timerStage_dt, toNat_countDown], by rw [timerStage_st, toNat_countDown], ?_, h⟩
  rw [timerStage_out, beq_iff_eq, ← BitVec.toNat_inj]
  rfl

/-! ### The whole cycle -/

/-- The cycle of the instruction that the machine fetches: stage 4 after stages 1 to 3, then the end of the cycle. -/
theorem step_of_fetches {s : State} {i : Instr} (h : Fetches s i) : step s = finish (exec i (beginCycle s)) := by
  obtain ⟨hfault, hpc, hdec⟩ := h
  have hfetch : fetch s = .ok (opcodeAt s s.pc.toNat) := fetch_eq_ok.2 ⟨hpc, rfl⟩
  rw [step, hfault]
  simp only [hfetch, hdec]

/-- A cycle that gives a next state ran the instruction at `PC`. -/
theorem exec_of_step_eq_next {s t : State} (h : step s = .next t) :
    s.pc.toNat + 1 < 4096 ∧
      ∃ u, exec (decodeWord (opcodeAt s s.pc.toNat)) (beginCycle s) = .next u ∧ t = endCycle u := by
  obtain ⟨-, w, hfetch, u, hexec, ht⟩ := step_eq_next.1 h
  obtain ⟨hpc, rfl⟩ := fetch_eq_ok.1 hfetch
  exact ⟨hpc, u, hexec, ht⟩

/-- The frame of a whole cycle: no general register changes but those its instruction may write, and no piece of state
but those of the instruction, of the stages around it and of the inputs and outputs. -/
theorem step_frame {s t : State} {i : Instr} (hi : Fetches s i) (h : step s = .next t) :
    (∀ r, ¬ writesReg i r → t.getV r = s.getV r) ∧
      ∀ p, p ∉ writes i → p ∉ [.pc, .redraw, .dt, .st] ++ cycleParts → p.Kept s t := by
  obtain ⟨-, u, hexec, rfl⟩ := exec_of_step_eq_next h
  obtain ⟨-, -, hdec⟩ := hi
  rw [hdec] at hexec
  obtain ⟨hregs, hparts⟩ := exec_frame hexec
  refine ⟨fun r hr => ?_, fun p hp hcycle => ?_⟩
  · rw [endCycle_getV, hregs r hr, beginCycle_getV]
  · have hbegin : p.Kept s (beginCycle s) := beginCycle_keeps s (by simp_all)
    have hend : p.Kept u (endCycle u) := endCycle_keeps u (by simp_all [cycleParts])
    exact (hbegin.trans (hparts p hp)).trans hend

section
variable {s : State} (hpc : s.pc.toNat + 1 < 4096)
include hpc

/-- Stage 2 does not wrap where the fetch answered. -/
theorem toNat_beginCycle_pc : (beginCycle s).pc.toNat = s.pc.toNat + 2 :=
  (beginCycle_pc_of_fetch (fetch_eq_ok.2 ⟨hpc, rfl⟩)).1

/-- A skip in stage 4 does not wrap either. -/
theorem toNat_skipIf_beginCycle_pc (c : Bool) :
    (skipIf c (beginCycle s)).pc.toNat = if c then s.pc.toNat + 4 else s.pc.toNat + 2 := by
  rw [skipIf_eq, State.setPc_pc, beginCycle_pc]
  split <;> bv_omega

end

end Sys2Proof.Machine
end

section
/-! What stage 4 does with `PC` and with the diagnostic (30_encoding.md R56, R61). -/
namespace Sys2Proof.Machine

/-! ### The keys that an instruction reads -/

theorem pressedKeys_eq_nil {s : State} : pressedKeys s = [] ↔ noKey s.keys := by
  change _ ↔ ∀ k, s.keyDown k = false
  simp [List.eq_nil_iff_forall_not_mem]

/-- FX0A waits exactly where no key is pressed (44_keypad_timers.md R123). -/
theorem execLdVxKey_of_noKey {x : Reg} {s : State} (h : noKey s.keys) : execLdVxKey x s = .next (waitForKey s) := by
  rw [execLdVxKey, chooseKey_eq_none.2 (pressedKeys_eq_nil.2 h)]

/-- FX0A writes the number of a pressed key where there is one (44_keypad_timers.md R123). -/
theorem execLdVxKey_of_key {x : Reg} {s : State} (h : ¬ noKey s.keys) :
    ∃ k, s.keyDown k = true ∧ execLdVxKey x s = .next (s.setV x (BitVec.ofNat 8 k.val)) := by
  rw [← pressedKeys_eq_nil, ← chooseKey_eq_none (pick := s.keyPick), ← ne_eq, Option.ne_none_iff_exists'] at h
  obtain ⟨k, hk⟩ := h
  exact ⟨k, mem_pressedKeys.1 (chooseKey_mem hk), by rw [execLdVxKey, hk]⟩

theorem beginCycle_keyDown (s : State) (k : Reg) : (beginCycle s).keyDown k = (presentedKeys s)[k.val] := by
  rw [State.keyDown, beginCycle_presentedKeys, Fin.getElem_fin]

/-! ### `PC` -/

/-- `PC` after stage 4 is where the rule says (R61). -/
theorem exec_pc {i : Instr} {s t : State} (h : exec i (beginCycle s) = .next t) (hpc : s.pc.toNat + 1 < 4096) :
    t.pc.toNat = expectedPc s i := by
  cases i with
  | ret =>
    obtain ⟨-, rfl⟩ := execRet_eq_next.1 h
    simp [expectedPc]
  | jp nnn =>
    obtain rfl := Host.Outcome.next.inj h
    exact toNat_addrImm nnn
  | call nnn =>
    obtain ⟨-, rfl⟩ := execCall_eq_next.1 h
    exact toNat_addrImm nnn
  | jpV0 nnn =>
    obtain rfl := Host.Outcome.next.inj h
    rw [State.setPc_pc, BitVec.toNat_add, toNat_addrImm, toNat_zextByte, beginCycle_getV, expectedPc]
    omega
  | seImm | sneImm | seReg | sneReg =>
    obtain rfl := Host.Outcome.next.inj h
    rw [toNat_skipIf_beginCycle_pc hpc]
    simp [expectedPc]
  | skp x =>
    obtain ⟨k, hk, rfl⟩ := execSkp_eq_next.1 h
    rw [beginCycle_getV, keyIndex_eq_ok] at hk
    rw [toNat_skipIf_beginCycle_pc hpc]
    simp [expectedPc, hk, beginCycle_keyDown]
  | sknp x =>
    obtain ⟨k, hk, rfl⟩ := execSknp_eq_next.1 h
    rw [beginCycle_getV, keyIndex_eq_ok] at hk
    rw [toNat_skipIf_beginCycle_pc hpc]
    simp [expectedPc, hk, beginCycle_keyDown]
  | ldVxKey x =>
    rw [expectedPc, ← beginCycle_presentedKeys]
    split
    next hkeys =>
      obtain rfl := Host.Outcome.next.inj ((execLdVxKey_of_noKey hkeys).symm.trans h)
      have hown : (waitForKey (beginCycle s)).pc = (beginCycle s).pc - 2 := rfl
      rw [hown, beginCycle_pc, BitVec.add_sub_cancel]
    next hkeys =>
      obtain ⟨k, -, hexec⟩ := execLdVxKey_of_key (x := x) hkeys
      obtain rfl := Host.Outcome.next.inj (hexec.symm.trans h)
      exact toNat_beginCycle_pc hpc
  | _ =>
    have hkept : t.pc = (beginCycle s).pc := exec_keeps h .pc (by simp [writes])
    rw [hkept]
    exact toNat_beginCycle_pc hpc

/-! ### The diagnostic -/

/-- Only the fallback emits a diagnostic (60_exceptions.md R138). -/
theorem exec_keeps_diag {i : Instr} {s t : State} (h : exec i s = .next t) (hi : ∀ w, i ≠ .unrecognized w) :
    t.out.diag = s.out.diag := by
  cases i with
  | unrecognized w => exact absurd rfl (hi w)
  | ldVxKey x =>
    obtain rfl | ⟨b, rfl⟩ := eq_of_execLdVxKey_eq_next h
    · rfl
    · rfl
  | _ => exact congrArg CycleOutput.diag (exec_keeps h .out (by simp [writes]))

end Sys2Proof.Machine
end

section
/-! The statements of 30_encoding.md sections 2 and 4. -/
namespace Sys2Proof.Machine

/-- Settles O35: no row selects the opcode, so it is the fallback, whose stage sets the diagnostic only; the stages
around it are those of every cycle, and no other instruction touches the diagnostic. -/
theorem unrecognizedIsNoOpWithDiagnostic : Obligations.UnrecognizedIsNoOpWithDiagnostic := by
  refine ⟨fun w => decodeWord_of_no_row, fun w s => ?_, fun w s hi => ?_, fun i s t hi hother hstep => ?_⟩
  · have hexec : exec (.unrecognized w) s = .next (diagnose w s) := rfl
    obtain ⟨hregs, hparts⟩ := exec_frame hexec
    exact ⟨_, hexec, rfl, rfl, rfl, fun r _ => hregs r id, fun p hp => (hparts p hp).same⟩
  · have hstep : step s = .next (endCycle (diagnose w (beginCycle s))) := step_of_fetches hi
    obtain ⟨hregs, hparts⟩ := step_frame hi hstep
    obtain ⟨hdt, hst, hbeep, hstatus⟩ := endCycle_of_completed (u := diagnose w (beginCycle s)) (by simp [diagnose])
    obtain ⟨-, hpc, -⟩ := hi
    refine ⟨_, hstep, ?_, ?_, ?_, ?_, hstatus, ?_, ?_, fun r _ => hregs r id, fun p hp => (hparts p ?_ hp).same⟩
    · rw [endCycle_pc]
      exact toNat_beginCycle_pc hpc
    · rw [endCycle_redraw]
      exact beginCycle_redraw s
    · simpa [diagnose] using hdt
    · simpa [diagnose] using hst
    · simpa [diagnose] using hbeep
    · simp [diagnose, ownAddress]
    · intro hw
      obtain rfl := List.mem_singleton.1 hw
      exact hp (by decide)
  · obtain ⟨-, u, hexec, rfl⟩ := exec_of_step_eq_next hstep
    obtain ⟨-, -, hdec⟩ := hi
    rw [hdec] at hexec
    rw [endCycle_diag, exec_keeps_diag hexec hother, beginCycle_out]

/-- Settles O44: `PC` after stage 4, which the end of the cycle keeps; a fault keeps the state before the cycle. -/
theorem cycleNetEffectOnPc : Obligations.CycleNetEffectOnPc := by
  refine ⟨fun s t h => ?_, fun input s t f h => ?_⟩
  · obtain ⟨hpc, u, hexec, rfl⟩ := exec_of_step_eq_next h
    rw [endCycle_pc]
    exact exec_pc hexec hpc
  · obtain ⟨-, -, rfl⟩ := cycleCall_eq_faulted.1 h
    exact recordFault_pc s f

/-- Settles O43, stage by stage. -/
theorem stepRunsDecodedInstruction : Obligations.StepRunsDecodedInstruction := by
  refine ⟨fun s i hfault hpc hdec => ?_, fun _ => rfl, fun _ => rfl, fun s => ?_,
    fun s h later hp => beginCycle_cons hp, fun u h => ?_, fun u h => endCycle_waiting h⟩
  · obtain ⟨hi, -⟩ := Prod.mk.inj (Except.ok.inj hdec)
    exact step_of_fetches ⟨hfault, Nat.lt_succ_of_le hpc, hi⟩
  · exact ⟨beginCycle_pc s, beginCycle_redraw s, beginCycle_presentedKeys s, beginCycle_out s,
      fun r _ => beginCycle_getV s r, fun p hp => (beginCycle_keeps s hp).same⟩
  · obtain ⟨hdt, hst, hbeep, hstatus⟩ := endCycle_of_completed h
    exact ⟨hdt, hst, hbeep, hstatus, endCycle_diag u, fun r _ => endCycle_getV u r,
      fun p hp => (endCycle_keeps u hp).same⟩

end Sys2Proof.Machine
end

section
/-! Control transfer (40_control_flow.md): which opcodes a row selects, what the instructions do to `PC` and to the stack,
and the whole cycles of a call and of a return. -/
namespace Sys2Proof.Machine

/-! ### The opcodes that a row selects (30_encoding.md R54) -/

/-- A row that tests the leading digit only. -/
theorem selects_of_fieldOp (op : BitVec 4) {mk : Word → Instr} (h : ∀ w, fieldOp w = op → decodeWord w = mk w) :
    Selects maskNnn (encNnn op 0) mk :=
  fun w hw => h w ((selects_nnn w op).1 (beq_iff_eq.2 hw))

/-- A row that tests the leading and the last digit. -/
theorem selects_of_fieldOp_fieldN (op : BitVec 4) (n : Fin 16) {mk : Word → Instr}
    (h : ∀ w, fieldOp w = op → fieldN w = n → decodeWord w = mk w) : Selects maskXy (encXyn op 0 0 n) mk := by
  intro w hw
  obtain ⟨hop, hn⟩ := (selects_xy w op n).1 (beq_iff_eq.2 hw)
  exact h w hop hn

/-- A row that tests every digit. -/
theorem selects_of_eq {pattern : Word} {i : Instr} (h : decodeWord pattern = i) :
    Selects maskFix pattern fun _ => i := by
  intro w hw
  obtain rfl := (selects_fix w pattern).1 (beq_iff_eq.2 hw)
  exact h

/-! ### What an instruction that completes leaves -/

/-- The frame of an instruction that writes no general register. -/
theorem frame_of_exec_eq_next {i : Instr} {s t : State} (h : exec i s = .next t) (hregs : ∀ r, ¬ writesReg i r) :
    Frame [] (writes i) s t :=
  ⟨fun r _ => (exec_frame h).1 r (hregs r), fun p hp => ((exec_frame h).2 p hp).same⟩

/-- A skip on a test that decides `p`. -/
theorem skipIf_pc {c : Bool} {p : Prop} [Decidable p] (hc : c = true ↔ p) (s : State) :
    (skipIf c s).pc = if p then s.pc + 2 else s.pc := by
  rw [skipIf_eq, State.setPc_pc]
  exact if_congr hc rfl rfl

/-- The target of BNNN fits in 16 bits (R77). -/
theorem toNat_addrImm_add_zextByte (nnn : BitVec 12) (b : Byte) :
    (addrImm nnn + zextByte b).toNat = nnn.toNat + b.toNat := by
  rw [BitVec.toNat_add, toNat_addrImm, toNat_zextByte]
  omega

section
variable {s : State}

theorem exec_call (nnn : BitVec 12) (h : s.sp ≠ 15) :
    exec (.call nnn) s = .next (((s.setSp (s.sp + 1)).setSlot (s.sp + 1) s.pc).setPc (addrImm nnn)) :=
  execCall_eq_next.2 ⟨h, rfl⟩

theorem exec_call_full (nnn : BitVec 12) (h : s.sp = 15) : exec (.call nnn) s = .fault (.stackOverflow 15) := by
  rw [exec, execCall, push_eq_error.2 ⟨h, rfl⟩]
  rfl

theorem exec_ret (h : s.sp ≠ 0) : exec .ret s = .next ((s.setSp (s.sp - 1)).setPc (s.getSlot s.sp)) :=
  execRet_eq_next.2 ⟨h, rfl⟩

theorem exec_ret_empty (h : s.sp = 0) : exec .ret s = .fault (.stackUnderflow 0) := by
  rw [exec, execRet, pop_eq_error.2 ⟨h, rfl⟩]
  rfl

/-! ### The cycles of a call and of a return -/

@[simp] theorem endCycle_sp (s : State) : (endCycle s).sp = s.sp :=
  endCycle_keeps s (p := .sp) (by decide)

@[simp] theorem endCycle_getSlot (s : State) (k : Fin 16) : (endCycle s).getSlot k = s.getSlot k :=
  (endCycle_keeps s (p := .stack) (by decide)).same k

/-- The whole cycle of 2NNN: the slot at the new `SP` holds the address after the call. -/
theorem step_call {nnn : BitVec 12} (hi : Fetches s (.call nnn)) (hsp : s.sp ≠ 15) :
    ∃ t, step s = .next t ∧ t.pc.toNat = nnn.toNat ∧ t.sp = s.sp + 1 ∧ t.getSlot t.sp = s.pc + 2 := by
  rw [step_of_fetches hi, exec_call nnn (by rwa [beginCycle_sp])]
  exact ⟨_, rfl, by simp⟩

/-- The whole cycle of 00EE. -/
theorem step_ret (hi : Fetches s .ret) (hsp : s.sp ≠ 0) :
    ∃ t, step s = .next t ∧ t.pc = s.getSlot s.sp ∧ t.sp = s.sp - 1 := by
  rw [step_of_fetches hi, exec_ret (by rwa [beginCycle_sp])]
  exact ⟨_, rfl, by simp⟩

end

/-- A machine with the memory of `s` runs next what the bytes of `s` at its `PC` decode to. -/
theorem Fetches.of_kept {s t : State} {i : Instr} {a : Nat} (hs : s.fault = none) (hfault : t.fault = s.fault)
    (hmem : t.mem = s.mem) (hpc : t.pc.toNat = a) (ha : a + 1 ≤ 4095) (hdec : decodeWord (opcodeAt s a) = i) :
    Fetches t i := by
  subst hpc
  refine ⟨hfault.trans hs, Nat.lt_succ_of_le ha, ?_⟩
  rwa [opcodeAt, State.byteAt, State.byteAt, hmem]

end Sys2Proof.Machine
end

section
/-! The statements of 40_control_flow.md. -/
namespace Sys2Proof.Machine

/-- Settles O55: the call's cycle pushes the address after it and keeps the memory, so the next cycle runs the 00EE at
`nnn`, which pops that address; beside `SP`, what the two cycles may change is what the statement lets change. -/
theorem callThenReturnRestores : Obligations.CallThenReturnRestores := by
  intro s nnn hcall hsp hnnn hdec
  have hfull : s.sp ≠ 15 := fun h => hsp (congrArg Fin.val h)
  have ⟨hfault, hpc, _⟩ := hcall
  obtain ⟨t, hst, htpc, htsp, htslot⟩ := step_call hcall hfull
  obtain ⟨hregs, hkept⟩ := step_frame hcall hst
  have hret : Fetches t .ret :=
    .of_kept hfault (hkept .fault (by simp [writes]) (by decide)) (hkept .mem (by simp [writes]) (by decide))
      htpc hnnn hdec
  obtain ⟨u, htu, hupc, husp⟩ := step_ret hret (htsp ▸ sp_add_one_ne_zero hfull)
  obtain ⟨hregs', hkept'⟩ := step_frame hret htu
  have hsp_back : u.sp = s.sp := by rw [husp, htsp, add_sub_cancel_right]
  refine ⟨u, by rw [run_succ hst, run_succ htu, run_zero], ?_, hsp_back, fun r _ => ?_, fun p hp => ?_⟩
  · rw [hupc, htslot, ← beginCycle_pc]
    exact toNat_beginCycle_pc hpc
  · exact (hregs' r id).trans (hregs r id)
  · by_cases hps : p = .sp
    · rw [hps]
      exact hsp_back
    · have hcycle : p ∉ [.pc, .redraw, .dt, .st] ++ cycleParts := by simp_all
      have hcall_writes : p ∉ writes (.call nnn) := by simp_all [writes]
      have hret_writes : p ∉ writes .ret := by simp_all [writes]
      exact ((hkept p hcall_writes hcycle).trans (hkept' p hret_writes hcycle)).same

/-- Settles O1, by the two cases of `Pop`. -/
theorem retPopsPc : Obligations.RetPopsPc := by
  refine ⟨selects_of_eq (by decide), fun s hsp => ?_, fun s hsp => exec_ret_empty (Fin.ext hsp)⟩
  have hexec := exec_ret (s := s) fun h => hsp (congrArg Fin.val h)
  refine ⟨_, hexec, rfl, ?_, frame_of_exec_eq_next hexec fun _ => id⟩
  simp only [State.setPc_sp, State.setSp_sp]
  omega

/-- Settles O2: the jump completes in every state. -/
theorem jumpSetsPc : Obligations.JumpSetsPc :=
  ⟨selects_of_fieldOp 0x1#4 fun w hop => by rw [decodeWord, hop]; rfl, fun nnn _ =>
    ⟨_, rfl, toNat_addrImm nnn, frame_of_exec_eq_next (i := .jp nnn) rfl fun _ => id⟩⟩

/-- Settles O3, by the two cases of `Push`. -/
theorem callPushesPc : Obligations.CallPushesPc := by
  refine ⟨selects_of_fieldOp 0x2#4 fun w hop => by rw [decodeWord, hop]; rfl, fun nnn s hsp => ?_,
    fun nnn s hsp => exec_call_full nnn (Fin.ext hsp)⟩
  have hexec := exec_call (s := s) nnn fun h => hsp (congrArg Fin.val h)
  refine ⟨_, hexec, ?_, by simp, fun k hk => ?_, toNat_addrImm nnn, frame_of_exec_eq_next hexec fun _ => id⟩
  · simp only [State.setPc_sp, State.setSlot_sp, State.setSp_sp]
    omega
  · simp_all

/-- Settles O4: the skip's test is the equality. -/
theorem skipIfEqualImmediate : Obligations.SkipIfEqualImmediate :=
  ⟨selects_of_fieldOp 0x3#4 fun w hop => by rw [decodeWord, hop]; rfl, fun x nn s =>
    ⟨_, rfl, skipIf_pc beq_iff_eq s, frame_of_exec_eq_next (i := .seImm x nn) rfl fun _ => id⟩⟩

/-- Settles O5: the skip's test is the inequality. -/
theorem skipIfNotEqualImmediate : Obligations.SkipIfNotEqualImmediate :=
  ⟨selects_of_fieldOp 0x4#4 fun w hop => by rw [decodeWord, hop]; rfl, fun x nn s =>
    ⟨_, rfl, skipIf_pc bne_iff_ne s, frame_of_exec_eq_next (i := .sneImm x nn) rfl fun _ => id⟩⟩

/-- Settles O6: the skip's test is the equality. -/
theorem skipIfRegistersEqual : Obligations.SkipIfRegistersEqual :=
  ⟨selects_of_fieldOp_fieldN 0x5#4 0 fun w hop hn => by rw [decodeWord, hop]; exact if_pos hn, fun x y s =>
    ⟨_, rfl, skipIf_pc beq_iff_eq s, frame_of_exec_eq_next (i := .seReg x y) rfl fun _ => id⟩⟩

/-- Settles O7: the skip's test is the inequality. -/
theorem skipIfRegistersDiffer : Obligations.SkipIfRegistersDiffer :=
  ⟨selects_of_fieldOp_fieldN 0x9#4 0 fun w hop hn => by rw [decodeWord, hop]; exact if_pos hn, fun x y s =>
    ⟨_, rfl, skipIf_pc bne_iff_ne s, frame_of_exec_eq_next (i := .sneReg x y) rfl fun _ => id⟩⟩

/-- Settles O8: the target of the jump does not wrap. -/
theorem jumpOffsetAddsV0 : Obligations.JumpOffsetAddsV0 :=
  ⟨selects_of_fieldOp 0xB#4 fun w hop => by rw [decodeWord, hop]; rfl, fun nnn s =>
    ⟨_, rfl, toNat_addrImm_add_zextByte nnn (s.getV 0), frame_of_exec_eq_next (i := .jpV0 nnn) rfl fun _ => id⟩⟩

end Sys2Proof.Machine
end

section
/-! The register, arithmetic, logic, shift and random instructions (41_alu.md): which opcodes the rows of leading digit
8 select, what one write of a register or the flag-first order (R93) leaves, and the results as numbers and as bits. -/
namespace Sys2Proof.Machine

/-- A row of leading digit 8, which tests the last digit too (30_encoding.md R54). -/
theorem selects_of_decode8 (n : Fin 16) {mk : Word → Instr} (h : ∀ w, fieldN w = n → decode8 w = mk w) :
    Selects maskXy (encXyn 0x8#4 0 0 n) mk :=
  selects_of_fieldOp_fieldN 0x8#4 n fun w hop hn => by rw [decodeWord, hop]; exact h w hn

/-! ### What writes of general registers leave unchanged -/

theorem Frame.refl (regs : List Reg) (parts : List Part) (s : State) : Frame regs parts s s :=
  ⟨fun _ _ => rfl, fun _ _ => Part.kept_refl.same⟩

/-- A write of a register that may change keeps the frame. -/
theorem Frame.setV {regs : List Reg} {parts : List Part} {s t : State} (h : Frame regs parts s t) {r : Reg}
    (hr : r ∈ regs) (b : Byte) : Frame regs parts s (t.setV r b) := by
  obtain ⟨hregs, hparts⟩ := h
  refine ⟨fun q hq => ?_, fun p hp => ?_⟩
  · rw [State.getV_setV, if_neg (ne_of_mem_of_not_mem hr hq).symm]
    exact hregs q hq
  · cases p <;> exact hparts _ hp

section
variable (s : State) (x : Reg) (f b : Byte) (g : State → Byte)

theorem frame_setV : Frame [x] [] s (s.setV x b) :=
  (Frame.refl [x] [] s).setV List.mem_cons_self b

theorem frame_setV_setV_regF : Frame [x, 15] [] s ((s.setV x b).setV regF f) :=
  ((Frame.refl [x, 15] [] s).setV (by simp) b).setV (by simp) f

theorem frame_flagThen : Frame [x, 15] [] s (flagThen f x g s) :=
  ((Frame.refl [x, 15] [] s).setV (by simp) f).setV (by simp) _

theorem getV_setV_same : (s.setV x b).getV x = b := by
  rw [State.getV_setV, if_pos rfl]

/-! ### The flag-first order (R93) -/

/-- The destination gets the result of the registers as the flag's write left them, `VF` included. -/
theorem getV_flagThen_dest : (flagThen f x g s).getV x = g (s.setV regF f) := by
  rw [getV_flagThen, if_pos rfl]

/-- The flag stays in `VF` unless `VF` is the destination. -/
theorem getV_flagThen_regF {x : Reg} (hx : x ≠ 15) : (flagThen f x g s).getV 15 = f := by
  rw [getV_flagThen, if_neg hx.symm, if_pos rfl]

/-- The registers that the second statement reads. -/
theorem toNat_getV_setV_regF (r : Reg) : ((s.setV regF f).getV r).toNat = reread s f.toNat r := by
  rw [State.getV_setV, reread]
  exact apply_ite BitVec.toNat _ _ _

end

/-- An instruction of the flag-first order, from the number its flag is and the number its result is. -/
theorem exec_of_flagThen {i : Instr} {s : State} {f : Byte} {x : Reg} {g : State → Byte} {flagNat result : Nat}
    (h : exec i s = .next (flagThen f x g s)) (hf : f.toNat = flagNat) (hg : (g (s.setV regF f)).toNat = result) :
    ∃ t, exec i s = .next t ∧ (t.getV x).toNat = result ∧ (x ≠ 15 → (t.getV 15).toNat = flagNat) ∧
      Frame [x, 15] [] s t :=
  ⟨_, h, by rw [getV_flagThen_dest, hg], fun hx => by rw [getV_flagThen_regF s f g hx, hf], frame_flagThen s x f g⟩

/-! ### Results as numbers and as bits -/

/-- The difference modulo 256, written without a borrow. -/
theorem toNat_byte_sub (a b : Byte) : (a - b).toNat = (a.toNat + 256 - b.toNat) % 256 := by
  rw [BitVec.toNat_sub]
  omega

theorem toNat_byte_ushiftRight_one (a : Byte) : (a >>> 1).toNat = a.toNat / 2 := by
  rw [BitVec.toNat_ushiftRight, Nat.shiftRight_one]

theorem toNat_byte_shiftLeft_one (a : Byte) : (a <<< 1).toNat = 2 * a.toNat % 256 := by
  rw [BitVec.toNat_shiftLeft, Nat.shiftLeft_eq, Nat.mul_comm]

/-- The bits of a masked draw. -/
theorem getLsbD_ofNat_and (n : Nat) (nn : Byte) {b : Nat} (hb : b < 8) :
    (BitVec.ofNat 8 n &&& nn).getLsbD b = (n.testBit b && nn.getLsbD b) := by
  rw [BitVec.getLsbD_and, BitVec.getLsbD_ofNat, decide_eq_true hb, Bool.true_and]

end Sys2Proof.Machine
end

section
/-! The statements of 41_alu.md. -/
namespace Sys2Proof.Machine

/-- Settles O16: the minuend and the subtrahend are both read after the flag was written. -/
theorem subtractFlagFirst : Obligations.SubtractFlagFirst := by
  refine ⟨selects_of_decode8 0x5 fun w hn => by rw [decode8, hn]; rfl, fun x y s => ?_⟩
  have hflag := toNat_greaterFlag (s.getV x) (s.getV y)
  exact exec_of_flagThen rfl hflag (by rw [toNat_byte_sub, toNat_getV_setV_regF, toNat_getV_setV_regF, hflag])

/-- Settles O17: the shifted register is read after the flag was written. -/
theorem shiftRightFlagFirst : Obligations.ShiftRightFlagFirst := by
  refine ⟨selects_of_decode8 0x6 fun w hn => by rw [decode8, hn]; rfl, fun x y s => ?_⟩
  have hflag := toNat_lowBitFlag (s.getV x)
  exact exec_of_flagThen rfl hflag (by rw [toNat_byte_ushiftRight_one, toNat_getV_setV_regF, hflag])

/-- Settles O18: as O16, with the operands exchanged. -/
theorem reverseSubtractFlagFirst : Obligations.ReverseSubtractFlagFirst := by
  refine ⟨selects_of_decode8 0x7 fun w hn => by rw [decode8, hn]; rfl, fun x y s => ?_⟩
  have hflag := toNat_greaterFlag (s.getV y) (s.getV x)
  exact exec_of_flagThen rfl hflag (by rw [toNat_byte_sub, toNat_getV_setV_regF, toNat_getV_setV_regF, hflag])

/-- Settles O19: the shifted register is read after the flag was written. -/
theorem shiftLeftFlagFirst : Obligations.ShiftLeftFlagFirst := by
  refine ⟨selects_of_decode8 0xE fun w hn => by rw [decode8, hn]; rfl, fun x y s => ?_⟩
  have hflag := toNat_highBitFlag (s.getV x)
  exact exec_of_flagThen rfl hflag (by rw [toNat_byte_shiftLeft_one, toNat_getV_setV_regF, hflag])

/-- Settles O9: one write of the destination. -/
theorem loadImmediateSetsVx : Obligations.LoadImmediateSetsVx :=
  ⟨selects_of_fieldOp 0x6#4 fun w hop => by rw [decodeWord, hop]; rfl, fun x nn s =>
    ⟨_, rfl, getV_setV_same s x nn, frame_setV s x nn⟩⟩

/-- Settles O10: one write of the destination, with the sum of 8 bits. -/
theorem addImmediateWraps : Obligations.AddImmediateWraps :=
  ⟨selects_of_fieldOp 0x7#4 fun w hop => by rw [decodeWord, hop]; rfl, fun x nn s =>
    ⟨_, rfl, by rw [getV_setV_same, BitVec.toNat_add], frame_setV s x _⟩⟩

/-- Settles O11: one write of the destination. -/
theorem copyRegister : Obligations.CopyRegister :=
  ⟨selects_of_decode8 0x0 fun w hn => by rw [decode8, hn]; rfl, fun x y s =>
    ⟨_, rfl, getV_setV_same s x (s.getV y), frame_setV s x _⟩⟩

/-- Settles O12, bit by bit. -/
theorem orRegister : Obligations.OrRegister :=
  ⟨selects_of_decode8 0x1 fun w hn => by rw [decode8, hn]; rfl, fun x y s =>
    ⟨_, rfl, fun b _ => by rw [getV_setV_same, BitVec.getLsbD_or], frame_setV s x _⟩⟩

/-- Settles O13, bit by bit. -/
theorem andRegister : Obligations.AndRegister :=
  ⟨selects_of_decode8 0x2 fun w hn => by rw [decode8, hn]; rfl, fun x y s =>
    ⟨_, rfl, fun b _ => by rw [getV_setV_same, BitVec.getLsbD_and], frame_setV s x _⟩⟩

/-- Settles O14, bit by bit. -/
theorem xorRegister : Obligations.XorRegister :=
  ⟨selects_of_decode8 0x3 fun w hn => by rw [decode8, hn]; rfl, fun x y s =>
    ⟨_, rfl, fun b _ => by rw [getV_setV_same, BitVec.getLsbD_xor], frame_setV s x _⟩⟩

/-- Settles O15: the carry is written last, so it covers the sum where the destination is `VF`. -/
theorem addRegisterSetsCarry : Obligations.AddRegisterSetsCarry := by
  refine ⟨selects_of_decode8 0x4 fun w hn => by rw [decode8, hn]; rfl, fun x y s =>
    ⟨_, rfl, fun hx => ?_, ?_, frame_setV_setV_regF s x _ _⟩⟩
  · rw [State.getV_setV, if_neg hx, getV_setV_same, BitVec.toNat_add]
  · rw [getV_setV_same, toNat_carryFlag]

/-- Settles O20: the draw that stage 4 reads is the one the cycle took, and the end of the cycle keeps the register. -/
theorem randomIsMaskedDraw : Obligations.RandomIsMaskedDraw := by
  refine ⟨selects_of_fieldOp 0xC#4 fun w hop => by rw [decodeWord, hop]; rfl, fun x nn s =>
    ⟨_, rfl, fun b hb => ?_, Nat.le_of_lt_succ s.rnd.isLt, frame_setV s x _⟩, fun x nn s input later hi hp => ?_⟩
  · rw [getV_setV_same, getLsbD_ofNat_and _ _ hb]
  · obtain ⟨-, hrnd, -, -⟩ := beginCycle_cons hp
    refine ⟨_, step_of_fetches hi, fun b hb => ?_⟩
    rw [endCycle_getV, getV_setV_same, hrnd, getLsbD_ofNat_and _ _ hb]

end Sys2Proof.Machine
end

section
/-! The index register and memory (42_index_memory.md): which opcodes the rows of leading digit F select, what the block
operations answer outside their range, and what a read sees behind them. -/
namespace Sys2Proof.Machine

/-- A row of leading digit F, which tests the low byte too (30_encoding.md R54). -/
theorem selects_of_decodeF (nn : Byte) {mk : Word → Instr} (h : ∀ w, fieldNn w = nn → decodeF w = mk w) :
    Selects maskX (encXnn 0xF#4 0 nn) mk := by
  intro w hw
  obtain ⟨hop, hnn⟩ := (selects_x w 0xF#4 nn).1 (beq_iff_eq.2 hw)
  rw [decodeWord, hop]
  exact h w hnn

/-! ### Accesses that reach above address 4095 (R103 to R105) -/

section
variable {x : Reg} {s : State}

theorem exec_ldBcd_out_of_range (h : 4095 < s.i.toNat + 2) :
    exec (.ldBcd x) s = .fault (.memWriteRange (max s.i.toNat 4096)) := by
  have hrange : 1 ≤ (bcdDigits (s.getV x)).length ∧ 4096 < effAddr s 0 + (bcdDigits (s.getV x)).length := by
    simp only [bcdDigits, effAddr, List.length_cons, List.length_nil]
    omega
  rw [exec, execLdBcd, memWrite_eq_error hrange]
  rfl

theorem exec_storeRegs_out_of_range (hx : 1 ≤ x.val) (h : 4095 < s.i.toNat + x.val - 1) :
    exec (.storeRegs x) s = .fault (.memWriteRange (max s.i.toNat 4096)) := by
  have hrange : 1 ≤ (regsBelow s x).length ∧ 4096 < effAddr s 0 + (regsBelow s x).length := by
    rw [length_regsBelow, effAddr]
    omega
  rw [exec, execStoreRegs, memWrite_eq_error hrange]
  rfl

theorem exec_loadRegs_out_of_range (hx : 1 ≤ x.val) (h : 4095 < s.i.toNat + x.val - 1) :
    exec (.loadRegs x) s = .fault (.memReadRange (max s.i.toNat 4096)) := by
  have hrange : 1 ≤ x.val ∧ 4096 < effAddr s 0 + x.val := by
    rw [effAddr]
    omega
  rw [exec, execLoadRegs, memRead_eq_error hrange]
  rfl

/-! ### Accesses that complete -/

/-- FX55 is one write of the block `V[0]` to `V[x-1]` at `I`. -/
theorem exec_storeRegs (h : x.val = 0 ∨ s.i.toNat + x.val - 1 ≤ 4095) :
    exec (.storeRegs x) s = .next (s.setMem (writeBytes s.mem s.i.toNat (regsBelow s x))) :=
  execStoreRegs_eq_next.2 ⟨by omega, rfl⟩

/-- FX65 is one load of the `x` bytes at `I` into the registers from `V[0]` on. -/
theorem exec_loadRegs (h : x.val = 0 ∨ s.i.toNat + x.val - 1 ≤ 4095) :
    exec (.loadRegs x) s = .next (setRegsFrom s 0 (readBytes s.mem s.i.toNat x.val)) :=
  execLoadRegs_eq_next.2 ⟨by omega, rfl⟩

end

/-- The three bytes behind a write of the decimal digits (R103). -/
theorem toNat_readByte_writeBytes_bcdDigits {m : Memory} (hm : m.wf = true) (a : Nat) (b : Byte) :
    (readByte (writeBytes m a (bcdDigits b)) a).toNat = b.toNat / 100 ∧
      (readByte (writeBytes m a (bcdDigits b)) (a + 1)).toNat = b.toNat / 10 % 10 ∧
      (readByte (writeBytes m a (bcdDigits b)) (a + 2)).toNat = b.toNat % 10 := by
  obtain ⟨h, t, o, hdigits, hh, ht, ho, -⟩ := bcdDigits_sum b
  have hbyte (k : Nat) (hk : k < [h, t, o].length) :
      readByte (writeBytes m a (bcdDigits b)) (a + k) = [h, t, o][k] := by
    rw [hdigits, readByte_writeBytes_add hm hk]
  exact ⟨(congrArg BitVec.toNat (hbyte 0 (by simp))).trans hh,
    (congrArg BitVec.toNat (hbyte 1 (by simp))).trans ht, (congrArg BitVec.toNat (hbyte 2 (by simp))).trans ho⟩

section
variable (s : State) (m : Memory) (a : Nat) {count : Nat} {k : Reg}

/-- A register below the count holds the byte at its own offset of the block (R105). -/
theorem getV_setRegsFrom_readBytes_of_lt (hk : k.val < count) :
    (setRegsFrom s 0 (readBytes m a count)).getV k = readByte m (a + k.val) := by
  have hin : 0 ≤ k.val ∧ k.val < 0 + (readBytes m a count).length := by
    rw [length_readBytes]
    omega
  rw [getV_setRegsFrom, dif_pos hin, getElem_readBytes, Nat.sub_zero]

/-- A register from the count on keeps its value (R105). -/
theorem getV_setRegsFrom_readBytes_of_le (hk : count ≤ k.val) :
    (setRegsFrom s 0 (readBytes m a count)).getV k = s.getV k := by
  rw [getV_setRegsFrom, dif_neg]
  rw [length_readBytes]
  omega

end

end Sys2Proof.Machine
end

section
/-! The statements of 42_index_memory.md. -/
namespace Sys2Proof.Machine

/-- Settles O53, by the frame of each instruction. -/
theorem instructionsWriteOnlyTheirParts : Obligations.InstructionsWriteOnlyTheirParts :=
  fun _ _ _ h p hp => (exec_keeps h p hp).same

/-- Settles O24: one write of the three digits, which is checked before any byte is written. -/
theorem bcdStoresThreeDigits : Obligations.BcdStoresThreeDigits := by
  refine ⟨selects_of_decodeF 0x33#8 fun w hnn => by rw [decodeF, hnn]; rfl, fun x s hwf hrange => ?_,
    fun x s => exec_ldBcd_out_of_range⟩
  obtain ⟨hundreds, tens, ones⟩ := toNat_readByte_writeBytes_bcdDigits hwf s.i.toNat (s.getV x)
  refine ⟨_, execLdBcd_eq_next.2 ⟨by omega, rfl⟩, hundreds, tens, ones, fun a ha => ?_, frame_setMem _ _⟩
  refine readByte_writeBytes_of_outside hwf (ha.imp_right fun h => ?_)
  simp only [bcdDigits, List.length_cons, List.length_nil]
  omega

/-- Settles O25: one write of the block of registers below `x`. -/
theorem storeRegistersExclusive : Obligations.StoreRegistersExclusive := by
  refine ⟨selects_of_decodeF 0x55#8 fun w hnn => by rw [decodeF, hnn]; rfl, fun x s hwf hrange => ?_,
    fun x s => exec_storeRegs_out_of_range⟩
  refine ⟨_, exec_storeRegs hrange, fun k hk => ?_, fun a ha => ?_, frame_setMem _ _⟩
  · exact readByte_writeBytes_regsBelow hwf _ hk
  · exact readByte_writeBytes_of_outside hwf (by rwa [length_regsBelow])

/-- Settles O26: one load into the registers below `x`; FX65 writes no other piece of state. -/
theorem loadRegistersExclusive : Obligations.LoadRegistersExclusive := by
  refine ⟨selects_of_decodeF 0x65#8 fun w hnn => by rw [decodeF, hnn]; rfl, fun x s hrange => ?_,
    fun x s => exec_loadRegs_out_of_range⟩
  have hexec := exec_loadRegs hrange
  refine ⟨_, hexec, fun k hk => ?_, fun k hk => ?_, fun p => (exec_keeps hexec p List.not_mem_nil).same⟩
  · exact getV_setRegsFrom_readBytes_of_lt s s.mem _ hk
  · exact getV_setRegsFrom_readBytes_of_le s s.mem _ hk

/-- Settles O56: the load's range check is the store's, and the byte at offset `k` of the block is `V[k]`. -/
theorem storeThenLoadRestores : Obligations.StoreThenLoadRestores := by
  intro x s hwf hrange
  refine ⟨_, exec_storeRegs hrange, fun u hmem hi =>
    ⟨_, exec_loadRegs (by rwa [hi]), fun k hk => ?_, fun k hk => ?_⟩⟩
  · rw [getV_setRegsFrom_readBytes_of_lt u _ _ hk, hmem, hi]
    exact readByte_writeBytes_regsBelow hwf _ hk
  · exact getV_setRegsFrom_readBytes_of_le u u.mem _ hk

/-- Settles O21: a 12-bit immediate fits in `I`. -/
theorem loadIndexSetsI : Obligations.LoadIndexSetsI :=
  ⟨selects_of_fieldOp 0xA#4 fun w hop => by rw [decodeWord, hop]; rfl, fun nnn _ =>
    ⟨_, rfl, toNat_addrImm nnn, frame_of_exec_eq_next (i := .ldI nnn) rfl fun _ => id⟩⟩

/-- Settles O22: the sum of 16 bits, and no register is written. -/
theorem addIndexWrapsAt65536 : Obligations.AddIndexWrapsAt65536 :=
  ⟨selects_of_decodeF 0x1E#8 fun w hnn => by rw [decodeF, hnn]; rfl, fun x s =>
    ⟨_, rfl, by rw [State.setI_i, BitVec.toNat_add, toNat_zextByte],
      frame_of_exec_eq_next (i := .addI x) rfl fun _ => id⟩⟩

/-- Settles O23: the product fits in `I` for every byte. -/
theorem fontIndexIsFiveTimesVx : Obligations.FontIndexIsFiveTimesVx :=
  ⟨selects_of_decodeF 0x29#8 fun w hnn => by rw [decodeF, hnn]; rfl, fun x s =>
    ⟨_, rfl, toNat_fontAddr (s.getV x), frame_of_exec_eq_next (i := .ldFont x) rfl fun _ => id⟩⟩

end Sys2Proof.Machine
end

section
/-! The display instructions (43_display.md): the state behind a drawing as a whole, and what DXYN answers inside and
outside the range of its sprite. -/
namespace Sys2Proof.Machine

section
variable (x y : Reg) (n : Fin 16) (s : State)

/-- The framebuffer and the flag after the `n` sprite rows at `I`, the flag being 0 before them (R111). -/
def spriteDrawing : Drawing :=
  drawRows (s.getV x) (s.getV y) 0 (s.fb, 0) (readBytes s.mem s.i.toNat n.val)

/-- A sprite is no higher than the screen, so no two of its rows meet. -/
theorem sprite_height_le : 0 + (readBytes s.mem s.i.toNat n.val).length ≤ 32 := by
  rw [length_readBytes]
  omega

/-- The state after a DXYN whose sprite can be read (R111). -/
def drawn : State :=
  ((s.setFb (spriteDrawing x y n s).1).setV regF (spriteDrawing x y n s).2).setRedraw true

end

section
variable {x y : Reg} {n : Fin 16} {s : State}

theorem exec_drw (h : n.val = 0 ∨ s.i.toNat + n.val - 1 ≤ 4095) : exec (.drw x y n) s = .next (drawn x y n s) := by
  have hrange : n.val = 0 ∨ effAddr s 0 + n.val ≤ 4096 := by
    rw [effAddr]
    omega
  rw [exec, execDrw, memRead_eq_ok hrange]
  rfl

theorem exec_drw_out_of_range (hn : 1 ≤ n.val) (h : 4095 < s.i.toNat + n.val - 1) :
    exec (.drw x y n) s = .fault (.memReadRange (max s.i.toNat 4096)) := by
  have hrange : 1 ≤ n.val ∧ 4096 < effAddr s 0 + n.val := by
    rw [effAddr]
    omega
  rw [exec, execDrw, memRead_eq_error hrange]
  rfl

/-! ### The cells -/

/-- A cell at an offset inside the sprite is XORed with the sprite's bit there, every other cell stays (R111). -/
theorem cell_drawn (row : Fin 32) (col : Fin 64) :
    (drawn x y n s).cell row col =
      if rowOffset (s.getV y) row < n.val ∧ colOffset (s.getV x) col < 8 then
        s.cell row col ^^
          spriteBit (s.byteAt (s.i.toNat + rowOffset (s.getV y) row)) (colOffset (s.getV x) col)
      else s.cell row col := by
  refine (cellOf_drawRows _ _ 0 (s.fb, 0) _ (sprite_height_le n s) row col).trans ?_
  simp only [length_readBytes, getElem_readBytes, Nat.zero_le, true_and, Nat.zero_add, Nat.sub_zero]
  rfl

/-- The cell of the sprite's pixel `(r, c)`. -/
theorem cell_drawn_pixel {r c : Nat} (hr : r < n.val) (hc : c < 8) :
    (drawn x y n s).cell (pixelRow (s.getV y) r) (pixelCol (s.getV x) c) =
      (s.cell (pixelRow (s.getV y) r) (pixelCol (s.getV x) c) ^^ spriteBit (s.byteAt (s.i.toNat + r)) c) := by
  rw [cell_drawn, (pixelRow_eq_iff (by omega)).1 rfl, (pixelCol_eq_iff (by omega)).1 rfl, if_pos ⟨hr, hc⟩]

/-- A cell that is no pixel of the sprite stays. -/
theorem cell_drawn_of_no_pixel {row : Fin 32} {col : Fin 64}
    (h : ∀ r c, r < n.val → c < 8 → row = pixelRow (s.getV y) r → col ≠ pixelCol (s.getV x) c) :
    (drawn x y n s).cell row col = s.cell row col := by
  rw [cell_drawn, if_neg]
  rintro ⟨hr, hc⟩
  exact h _ _ hr hc ((pixelRow_eq_iff (by omega)).2 rfl) ((pixelCol_eq_iff (by omega)).2 rfl)

/-! ### The flag and the frame -/

/-- `VF` is 1 where some pixel of the sprite is lit after the drawing, and 0 where none is (R111, D9). -/
theorem getV_regF_drawn :
    ((∃ r c, r < n.val ∧ c < 8 ∧
        (drawn x y n s).cell (pixelRow (s.getV y) r) (pixelCol (s.getV x) c) = true) →
      (drawn x y n s).getV 15 = 1) ∧
    ((¬ ∃ r c, r < n.val ∧ c < 8 ∧
        (drawn x y n s).cell (pixelRow (s.getV y) r) (pixelCol (s.getV x) c) = true) →
      (drawn x y n s).getV 15 = 0) := by
  have hflag := flag_drawRows (s.getV x) (s.getV y) 0 (s.fb, 0) _ (sprite_height_le n s) (spriteDrawing x y n s) rfl
  simp only [length_readBytes, Nat.zero_add] at hflag
  have hvf : (drawn x y n s).getV 15 = (spriteDrawing x y n s).2 := getV_setV_same _ _ _
  rw [hvf]
  exact hflag

theorem frame_of_exec_drw {t : State} (h : exec (.drw x y n) s = .next t) : Frame [15] [.fb, .redraw] s t := by
  obtain ⟨hregs, hparts⟩ := exec_frame h
  exact ⟨fun r hr => hregs r (List.ne_of_not_mem_cons hr), fun p hp => (hparts p hp).same⟩

end

end Sys2Proof.Machine
end

section
/-! The statements of 43_display.md. -/
namespace Sys2Proof.Machine

/-- Settles O28: with the sprite in range, DXYN gives the drawn state, whose cells and flag are known pixel by pixel. -/
theorem drawXorsSprite : Obligations.DrawXorsSprite := by
  refine ⟨selects_of_fieldOp 0xD#4 fun w hop => by rw [decodeWord, hop]; rfl, fun x y n s hrange => ?_,
    fun x y n s => exec_drw_out_of_range⟩
  obtain ⟨hlit, hdark⟩ := getV_regF_drawn (x := x) (y := y) (n := n) (s := s)
  refine ⟨_, exec_drw hrange, fun r c row col hr hc hrow hcol => ?_, fun row col h => ?_,
    fun r c row col hr hc hrow hcol h => ?_, fun h => ?_, rfl, frame_of_exec_drw (exec_drw hrange)⟩
  · obtain rfl : row = pixelRow (s.getV y) r := Fin.ext hrow
    obtain rfl : col = pixelCol (s.getV x) c := Fin.ext hcol
    exact cell_drawn_pixel hr hc
  · exact cell_drawn_of_no_pixel fun r c hr hc hrow hcol =>
      h r c hr hc (congrArg Fin.val hrow) (congrArg Fin.val hcol)
  · obtain rfl : row = pixelRow (s.getV y) r := Fin.ext hrow
    obtain rfl : col = pixelCol (s.getV x) c := Fin.ext hcol
    exact hlit ⟨r, c, hr, hc, h⟩
  · refine hdark ?_
    rintro ⟨r, c, hr, hc, hcell⟩
    exact Bool.false_ne_true ((h r c _ _ hr hc rfl rfl).symm.trans hcell)

/-- Settles O27: the framebuffer becomes the one whose cells are all 0, and no register is written. -/
theorem clearScreenZeroesCells : Obligations.ClearScreenZeroesCells :=
  ⟨selects_of_eq (by decide), fun _ =>
    ⟨_, rfl, cellOf_clearFb, rfl, frame_of_exec_eq_next (i := .cls) rfl fun _ => id⟩⟩

end Sys2Proof.Machine
end

section
/-! The keypad and the timers (44_keypad_timers.md): which opcodes the rows of leading digit E select, what the key
instructions answer, and the whole cycles of FX0A. -/
namespace Sys2Proof.Machine

/-- A row of leading digit E, which tests the low byte too (30_encoding.md R54). -/
theorem selects_of_decodeE (nn : Byte) {mk : Word → Instr} (h : ∀ w, fieldNn w = nn → decodeE w = mk w) :
    Selects maskX (encXnn 0xE#4 0 nn) mk := by
  intro w hw
  obtain ⟨hop, hnn⟩ := (selects_x w 0xE#4 nn).1 (beq_iff_eq.2 hw)
  rw [decodeWord, hop]
  exact h w hnn

/-! ### The skips on a key (R120, R121, R126) -/

section
variable {x k : Reg} {s : State}

theorem exec_skp (h : (s.getV x).toNat = k.val) : exec (.skp x) s = .next (skipIf (s.keyDown k) s) :=
  execSkp_eq_next.2 ⟨k, keyIndex_eq_ok.2 h, rfl⟩

theorem exec_sknp (h : (s.getV x).toNat = k.val) : exec (.sknp x) s = .next (skipIf (!s.keyDown k) s) :=
  execSknp_eq_next.2 ⟨k, keyIndex_eq_ok.2 h, rfl⟩

theorem exec_skp_no_key (h : 15 < (s.getV x).toNat) :
    exec (.skp x) s = .fault (.keyIndexRange (s.getV x).toNat) := by
  rw [exec, execSkp, keyIndex_eq_error.2 ⟨h, rfl⟩]
  rfl

theorem exec_sknp_no_key (h : 15 < (s.getV x).toNat) :
    exec (.sknp x) s = .fault (.keyIndexRange (s.getV x).toNat) := by
  rw [exec, execSknp, keyIndex_eq_error.2 ⟨h, rfl⟩]
  rfl

end

/-! ### FX0A with a key pressed (R123) -/

section
variable {x k : Reg} {s : State}

/-- A register holds the number of every key. -/
theorem toNat_getV_setV_keyNumber : ((s.setV x (BitVec.ofNat 8 k.val)).getV x).toNat = k.val := by
  rw [getV_setV_same, BitVec.toNat_ofNat]
  omega

/-- Every pressed key is the one that some draw takes (D13). -/
theorem exists_exec_ldVxKey_of_keyDown (h : s.keyDown k = true) :
    ∃ pick, exec (.ldVxKey x) { s with keyPick := pick } =
      .next (State.setV { s with keyPick := pick } x (BitVec.ofNat 8 k.val)) := by
  obtain ⟨pick, hpick⟩ := exists_chooseKey (mem_pressedKeys.2 h)
  have hchoose : chooseKey pick (pressedKeys { s with keyPick := pick }) = some k := hpick
  exact ⟨pick, by rw [exec, execLdVxKey, hchoose]⟩

/-- The whole cycle of FX0A with a key pressed: it completes, the register being written. -/
theorem step_ldVxKey_of_key (hi : Fetches s (.ldVxKey x)) (h : ¬ noKey (presentedKeys s)) :
    ∃ b, step s = .next (endCycle ((beginCycle s).setV x b)) := by
  rw [← beginCycle_presentedKeys] at h
  obtain ⟨k, -, hexec⟩ := execLdVxKey_of_key (x := x) h
  exact ⟨_, by rw [step_of_fetches hi, exec, hexec, finish]⟩

end

/-! ### FX0A with no key pressed (R123, D11, D12) -/

section
variable {s : State}

/-- The whole cycle of FX0A with no key pressed: it ends as a waiting one, without the timer stage. -/
theorem step_ldVxKey_of_noKey {x : Reg} (hi : Fetches s (.ldVxKey x)) (h : noKey (presentedKeys s)) :
    step s = .next (waitForKey (beginCycle s)) := by
  rw [← beginCycle_presentedKeys] at h
  rw [step_of_fetches hi, exec, execLdVxKey_of_noKey h, finish, endCycle_waiting rfl]

/-- Going back to the instruction undoes stage 2. -/
theorem waitForKey_beginCycle_pc : (waitForKey (beginCycle s)).pc = s.pc := by
  rw [waitForKey, State.setOut_pc, State.setPc_pc, ownAddress, beginCycle_pc, BitVec.add_sub_cancel]

/-- A waiting cycle keeps every piece of state but `REDRAW` and the inputs and outputs. -/
theorem waitForKey_beginCycle_keeps {p : Part} (hp : p ∉ .redraw :: cycleParts) :
    p.Kept s (waitForKey (beginCycle s)) := by
  by_cases hpc : p = .pc
  · rw [hpc]
    exact waitForKey_beginCycle_pc
  · have hout : p ≠ .out := (ne_of_mem_of_not_mem (by decide) hp).symm
    have hbegin : p.Kept s (beginCycle s) := beginCycle_keeps s (by simp_all)
    rwa [waitForKey, Part.kept_setOut hout, Part.kept_setPc hpc]

theorem frame_waitForKey_beginCycle : Frame [] (.redraw :: cycleParts) s (waitForKey (beginCycle s)) :=
  ⟨fun r _ => beginCycle_getV s r, fun _ hp => (waitForKey_beginCycle_keeps hp).same⟩

/-- After a waiting cycle the machine runs the same instruction again. -/
theorem Fetches.waitForKey_beginCycle {i : Instr} (hi : Fetches s i) : Fetches (waitForKey (beginCycle s)) i := by
  obtain ⟨hfault, hpc, hdec⟩ := hi
  exact .of_kept hfault (waitForKey_beginCycle_keeps (p := .fault) (by decide))
    (waitForKey_beginCycle_keeps (p := .mem) (by decide)) (congrArg BitVec.toNat waitForKey_beginCycle_pc)
    (Nat.le_of_lt_succ hpc) hdec

end

/-! ### Frames one after the other -/

theorem Part.same.trans {p : Part} {s t u : State} (hst : p.same s t) (htu : p.same t u) : p.same s u := by
  cases p with
  | stack | mem | keys => exact fun a => (htu a).trans (hst a)
  | fb => exact fun row col => (htu row col).trans (hst row col)
  | _ => exact Eq.trans htu hst

theorem Frame.trans {regs : List Reg} {parts : List Part} {s t u : State} (hst : Frame regs parts s t)
    (htu : Frame regs parts t u) : Frame regs parts s u := by
  obtain ⟨hregs, hparts⟩ := hst
  obtain ⟨hregs', hparts'⟩ := htu
  exact ⟨fun r hr => (hregs' r hr).trans (hregs r hr), fun p hp => (hparts p hp).trans (hparts' p hp)⟩

end Sys2Proof.Machine
end

section
/-! The statements of 44_keypad_timers.md. -/
namespace Sys2Proof.Machine

/-- Settles O34, by whether a key is pressed: with one, FX0A writes the number of the key that the draw takes and the
cycle completes; with none, the cycle ends where it waits. -/
theorem keyWaitOrKeyNumber : Obligations.KeyWaitOrKeyNumber := by
  refine ⟨selects_of_decodeF 0x0A#8 fun w hnn => by rw [decodeF, hnn]; rfl, fun x s hkey => ?_, fun x k s hdown => ?_,
    fun x s hnone => ?_, fun x s hi hnone => ?_, fun x s hi hkey => ?_⟩
  · obtain ⟨k, hdown, hexec⟩ := execLdVxKey_of_key (x := x) hkey
    exact ⟨_, k, hexec, hdown, toNat_getV_setV_keyNumber, frame_setV s x _⟩
  · obtain ⟨pick, hexec⟩ := exists_exec_ldVxKey_of_keyDown (x := x) hdown
    exact ⟨pick, _, hexec, toNat_getV_setV_keyNumber⟩
  · have hexec : exec (.ldVxKey x) s = .next (waitForKey s) := execLdVxKey_of_noKey hnone
    exact ⟨_, hexec, rfl, rfl, fun _ _ => rfl, fun p hp => (exec_keeps hexec p hp).same⟩
  · exact ⟨_, step_ldVxKey_of_noKey hi hnone, rfl, rfl, rfl, frame_waitForKey_beginCycle⟩
  · obtain ⟨b, hstep⟩ := step_ldVxKey_of_key hi hkey
    obtain ⟨hdt, hst, -, hstatus⟩ := endCycle_of_completed (u := (beginCycle s).setV x b) (by simp)
    obtain ⟨hregs, hparts⟩ := step_frame hi hstep
    have ⟨_, hpc, _⟩ := hi
    refine ⟨_, hstep, hstatus, ?_, by simpa using hdt, by simpa using hst,
      fun r hr => hregs r (List.ne_of_not_mem_cons hr), fun p hp => (hparts p ?_ ?_).same⟩
    · rw [endCycle_pc]
      exact toNat_beginCycle_pc hpc
    · simp_all [writes, cycleParts]
    · simp_all

/-- Settles O58, by induction on the cycles: each takes one input, with no key pressed, and leaves a machine that runs
FX0A again with the inputs after it. -/
theorem keyWaitLastsWhileNoKeyIsPressed : Obligations.KeyWaitLastsWhileNoKeyIsPressed := by
  intro k x
  induction k with
  | zero => exact fun s hi _ _ => ⟨s, run_zero s, hi, rfl, Frame.refl [] _ s⟩
  | succ k ih =>
    intro s hi hlen hnone
    obtain ⟨input, later, hp⟩ := List.exists_cons_of_length_pos (Nat.zero_lt_of_lt hlen)
    rw [hp] at hlen hnone
    have hkeys : noKey (presentedKeys s) := by
      rw [presentedKeys, hp]
      exact hnone input List.mem_cons_self
    obtain ⟨-, -, -, hbegin⟩ := beginCycle_cons hp
    have hpending : (waitForKey (beginCycle s)).pending = later := hbegin
    obtain ⟨t, hrun, hit, hrest, hframe⟩ := ih _ hi.waitForKey_beginCycle
      (by rw [hpending]; exact Nat.le_of_succ_le_succ hlen)
      (by rw [hpending]; exact fun h hh => hnone h (List.mem_cons_of_mem _ hh))
    refine ⟨t, (run_succ (step_ldVxKey_of_noKey hi hkeys)).trans hrun, hit, ?_,
      frame_waitForKey_beginCycle.trans hframe⟩
    rw [hrest, hpending, hp, List.drop_succ_cons]

/-- Settles O29, by whether `V[x]` names a key. -/
theorem skipIfKeyPressed : Obligations.SkipIfKeyPressed := by
  refine ⟨selects_of_decodeE 0x9E#8 fun w hnn => by rw [decodeE, hnn]; rfl, fun x k s hk => ?_,
    fun x s => exec_skp_no_key⟩
  have hexec := exec_skp hk
  exact ⟨_, hexec, skipIf_pc Iff.rfl s, frame_of_exec_eq_next hexec fun _ => id⟩

/-- Settles O30, by whether `V[x]` names a key. -/
theorem skipIfKeyNotPressed : Obligations.SkipIfKeyNotPressed := by
  refine ⟨selects_of_decodeE 0xA1#8 fun w hnn => by rw [decodeE, hnn]; rfl, fun x k s hk => ?_,
    fun x s => exec_sknp_no_key⟩
  have hexec := exec_sknp hk
  exact ⟨_, hexec, skipIf_pc (.of_eq (Bool.not_eq_true' _)) s, frame_of_exec_eq_next hexec fun _ => id⟩

/-- Settles O31: the register holds `DT` as it was before the timer stage. -/
theorem readDelayTimer : Obligations.ReadDelayTimer := by
  refine ⟨selects_of_decodeF 0x07#8 fun w hnn => by rw [decodeF, hnn]; rfl, fun x s =>
    ⟨_, rfl, getV_setV_same s x s.dt, frame_setV s x s.dt⟩, fun x s hi => ⟨_, step_of_fetches hi, ?_⟩⟩
  obtain ⟨hdt, -⟩ := endCycle_of_completed (u := (beginCycle s).setV x (beginCycle s).dt) (by simp)
  rw [endCycle_getV, getV_setV_same]
  exact ⟨beginCycle_dt s, hdt⟩

/-- Settles O32: the timer stage counts down from the value just written. -/
theorem setDelayTimer : Obligations.SetDelayTimer := by
  refine ⟨selects_of_decodeF 0x15#8 fun w hnn => by rw [decodeF, hnn]; rfl, fun x s =>
    ⟨_, rfl, rfl, frame_of_exec_eq_next (i := .ldDtVx x) rfl fun _ => id⟩,
    fun x s hi => ⟨_, step_of_fetches hi, ?_⟩⟩
  obtain ⟨hdt, -⟩ := endCycle_of_completed (u := (beginCycle s).setDt ((beginCycle s).getV x)) (by simp)
  rw [← beginCycle_getV s x]
  exact hdt

/-- Settles O33: the timer stage tests and counts down the value just written. -/
theorem setSoundTimer : Obligations.SetSoundTimer := by
  refine ⟨selects_of_decodeF 0x18#8 fun w hnn => by rw [decodeF, hnn]; rfl, fun x s =>
    ⟨_, rfl, rfl, frame_of_exec_eq_next (i := .ldStVx x) rfl fun _ => id⟩,
    fun x s hi => ⟨_, step_of_fetches hi, ?_⟩⟩
  obtain ⟨-, hst, hbeep, -⟩ := endCycle_of_completed (u := (beginCycle s).setSt ((beginCycle s).getV x)) (by simp)
  rw [← beginCycle_getV s x]
  exact ⟨hst, hbeep⟩

end Sys2Proof.Machine
end

section
/-! The stages of a cycle as 60_exceptions.md sees them: where an instruction faults (R131, R132), what the timer stage
sees (R143, R144), and the inputs that a cycle leaves in the state (R146). -/
namespace Sys2Proof.Machine

/-! ### The fault table (R131) -/

section
variable {i : Instr} {s : State}

/-- Where the condition of the table holds, the instruction ends in the fault of the table. -/
theorem exec_of_expectedFault_eq_some {f : Fault} (h : expectedFault i s = some f) : exec i s = .fault f := by
  cases i with
  | drw x y n =>
    obtain ⟨⟨hn, hrange⟩, rfl⟩ := Option.ite_some_none_eq_some.1 h
    exact exec_drw_out_of_range hn hrange
  | loadRegs x =>
    obtain ⟨⟨hx, hrange⟩, rfl⟩ := Option.ite_some_none_eq_some.1 h
    exact exec_loadRegs_out_of_range hx hrange
  | ldBcd x =>
    obtain ⟨hrange, rfl⟩ := Option.ite_some_none_eq_some.1 h
    exact exec_ldBcd_out_of_range hrange
  | storeRegs x =>
    obtain ⟨⟨hx, hrange⟩, rfl⟩ := Option.ite_some_none_eq_some.1 h
    exact exec_storeRegs_out_of_range hx hrange
  | call nnn =>
    obtain ⟨hsp, rfl⟩ := Option.ite_some_none_eq_some.1 h
    exact exec_call_full nnn (Fin.ext hsp)
  | ret =>
    obtain ⟨hsp, rfl⟩ := Option.ite_some_none_eq_some.1 h
    exact exec_ret_empty (Fin.ext hsp)
  | skp x =>
    obtain ⟨hkey, rfl⟩ := Option.ite_some_none_eq_some.1 h
    exact exec_skp_no_key hkey
  | sknp x =>
    obtain ⟨hkey, rfl⟩ := Option.ite_some_none_eq_some.1 h
    exact exec_sknp_no_key hkey
  | _ => nomatch h

theorem not_of_ite_some_eq_none {p : Prop} [Decidable p] {f : Fault} (h : (if p then some f else none) = none) :
    ¬ p :=
  fun hp => nomatch (if_pos hp).symm.trans h

/-- Where no condition of the table holds, the instruction gives a next state: it does not fault, and is not refused. -/
theorem exec_of_expectedFault_eq_none (h : expectedFault i s = none) : ∃ t, exec i s = .next t := by
  cases i with
  | drw x y n =>
    have hrange := not_of_ite_some_eq_none h
    exact ⟨_, exec_drw (by omega)⟩
  | loadRegs x =>
    have hrange := not_of_ite_some_eq_none h
    exact ⟨_, exec_loadRegs (by omega)⟩
  | ldBcd x =>
    have hrange := not_of_ite_some_eq_none h
    exact ⟨_, execLdBcd_eq_next.2 ⟨by omega, rfl⟩⟩
  | storeRegs x =>
    have hrange := not_of_ite_some_eq_none h
    exact ⟨_, exec_storeRegs (by omega)⟩
  | call nnn =>
    have hsp := not_of_ite_some_eq_none h
    exact ⟨_, exec_call nnn fun hfull => hsp (congrArg Fin.val hfull)⟩
  | ret =>
    have hsp := not_of_ite_some_eq_none h
    exact ⟨_, exec_ret fun hempty => hsp (congrArg Fin.val hempty)⟩
  | skp x =>
    have hkey := not_of_ite_some_eq_none h
    exact ⟨_, exec_skp (k := ⟨(s.getV x).toNat, by omega⟩) rfl⟩
  | sknp x =>
    have hkey := not_of_ite_some_eq_none h
    exact ⟨_, exec_sknp (k := ⟨(s.getV x).toNat, by omega⟩) rfl⟩
  | ldVxKey x =>
    by_cases hkeys : noKey s.keys
    · exact ⟨_, execLdVxKey_of_noKey hkeys⟩
    · obtain ⟨k, -, hexec⟩ := execLdVxKey_of_key (x := x) hkeys
      exact ⟨_, hexec⟩
  | _ => exact ⟨_, rfl⟩

theorem exec_eq_fault {f : Fault} : exec i s = .fault f ↔ expectedFault i s = some f := by
  refine ⟨fun h => ?_, exec_of_expectedFault_eq_some⟩
  cases hf : expectedFault i s with
  | none =>
    obtain ⟨t, ht⟩ := exec_of_expectedFault_eq_none hf
    exact nomatch h.symm.trans ht
  | some g => exact congrArg some (Host.Outcome.fault.inj ((exec_of_expectedFault_eq_some hf).symm.trans h))

end

/-! ### What the timer stage sees (R143, R144) -/

section
variable {i : Instr} {s t : State}

/-- Stage 4 waits for a key, or leaves the outcome of the cycle as it is. -/
theorem exec_waits_or_keeps_status (h : exec i s = .next t) :
    t = waitForKey s ∨ t.out.status = s.out.status := by
  cases i with
  | ldVxKey x =>
    obtain rfl | ⟨b, rfl⟩ := eq_of_execLdVxKey_eq_next h
    · exact .inl rfl
    · exact .inr rfl
  | unrecognized w =>
    obtain rfl := Host.Outcome.next.inj h
    exact .inr rfl
  | _ => exact .inr (congrArg CycleOutput.status (exec_keeps h .out (by simp [writes])))

theorem exec_dt (h : exec i (beginCycle s) = .next t) : t.dt.toNat = dtSeen s i := by
  cases i with
  | ldDtVx x =>
    obtain rfl := Host.Outcome.next.inj h
    rw [State.setDt_dt, beginCycle_getV, dtSeen]
  | _ =>
    have hkept : t.dt = (beginCycle s).dt := exec_keeps h .dt (by simp [writes])
    rw [hkept, beginCycle_dt]
    rfl

theorem exec_st (h : exec i (beginCycle s) = .next t) : t.st.toNat = stSeen s i := by
  cases i with
  | ldStVx x =>
    obtain rfl := Host.Outcome.next.inj h
    rw [State.setSt_st, beginCycle_getV, stSeen]
  | _ =>
    have hkept : t.st = (beginCycle s).st := exec_keeps h .st (by simp [writes])
    rw [hkept, beginCycle_st]
    rfl

end

/-! ### The inputs of a cycle (R146) -/

/-- The pieces of state that hold the inputs, those of the cycle that runs and those of the cycles to come. -/
def inputParts : List Part := [.keys, .rnd, .keyPick, .pending]

theorem not_mem_writes_of_mem_inputParts (i : Instr) : ∀ p ∈ inputParts, p ∉ writes i := by
  cases i <;> simp [inputParts, writes]

/-- Stages 4 and 5 keep the inputs that the cycle began with. -/
theorem step_keeps_inputs {s t : State} (h : step s = .next t) : ∀ p ∈ inputParts, p.Kept (beginCycle s) t := by
  obtain ⟨-, u, hexec, rfl⟩ := exec_of_step_eq_next h
  have htimers : ∀ p ∈ inputParts, p ∉ [Part.dt, .st, .out] := by decide
  intro p hp
  exact (exec_keeps hexec p (not_mem_writes_of_mem_inputParts _ p hp)).trans (endCycle_keeps u (htimers p hp))

/-- After a cycle the state holds the inputs that the host presented for it, and those after them are untouched. -/
theorem step_inputs {s t : State} {input : CycleInput} {later : List CycleInput} (hs : s.pending = input :: later)
    (h : step s = .next t) :
    t.keys = input.keys ∧ t.rnd = input.rnd ∧ t.keyPick = input.keyPick ∧ t.pending = later := by
  obtain ⟨hkeys, hrnd, hpick, hpending⟩ := beginCycle_cons hs
  have hkept := step_keeps_inputs h
  exact ⟨Eq.trans (hkept .keys (by decide)) hkeys, Eq.trans (hkept .rnd (by decide)) hrnd,
    Eq.trans (hkept .keyPick (by decide)) hpick, Eq.trans (hkept .pending (by decide)) hpending⟩

end Sys2Proof.Machine
end

section
/-! The statements of 60_exceptions.md. -/
namespace Sys2Proof.Machine

/-- Settles O45, by whether stage 4 waits: a waiting cycle ends with the timers it began with, and any other reaches the
timer stage with the timers as stage 4 left them. -/
theorem timerStageCountsCompletedCycles : Obligations.TimerStageCountsCompletedCycles := by
  intro s t hstep
  obtain ⟨-, u, hexec, rfl⟩ := exec_of_step_eq_next hstep
  obtain rfl | hstatus := exec_waits_or_keeps_status hexec
  · rw [endCycle_waiting rfl]
    exact ⟨.inr rfl, nofun, fun _ => ⟨beginCycle_dt s, beginCycle_st s, rfl⟩⟩
  · rw [beginCycle_out] at hstatus
    obtain ⟨hdt, hst, hbeep, hend⟩ := endCycle_of_completed hstatus
    rw [exec_dt hexec] at hdt
    rw [exec_st hexec] at hst hbeep
    exact ⟨.inl hend, fun _ => ⟨hdt, hst, hbeep⟩, fun hwait => nomatch hend.symm.trans hwait⟩

/-- Settles O47: the fault table is what stage 4 and the fetch answer. -/
theorem faultsAreThoseOfTheTable : Obligations.FaultsAreThoseOfTheTable := by
  refine ⟨fun i s f => exec_eq_fault, fun i s => exec_of_expectedFault_eq_none, fun s f => ?_, fun n => ?_⟩
  · rw [fetch_eq_error, Nat.not_lt, Nat.lt_iff_add_one_le]
  · exact ⟨⟨rfl, rfl, rfl, rfl, rfl, rfl⟩, by simp [faultInfo]⟩

/-- Settles O60, operation by operation. -/
theorem hostSeesCyclesAndCells : Obligations.HostSeesCyclesAndCells := by
  refine ⟨fun input s t hs hstep => ⟨cycleCall_eq_returned.2 ⟨hs, hstep⟩, step_inputs (present_pending input s) hstep⟩,
    fun input s f hs hstep => ⟨_, cycleCall_eq_faulted.2 ⟨hs, hstep, rfl⟩⟩,
    fun s => ⟨length_observe s, rfl, observe_cell s⟩, fun program inputs hlen => ?_⟩
  rw [loadProgram_of_fault_none rfl, if_neg (Nat.not_lt.2 hlen)]
  rfl

end Sys2Proof.Machine
end

section
/-! A machine parked at a jump to itself (70_reset_and_hazards.md R170 (a)): what one of its cycles does. -/
namespace Sys2Proof.Machine

variable {s : State}

/-- The whole cycle of 1NNN: it completes, with `PC` at `nnn` (40_control_flow.md R71), the timers counted down and
`REDRAW` cleared (30_encoding.md R60). -/
theorem step_jp {nnn : BitVec 12} (hi : Fetches s (.jp nnn)) :
    ∃ t, step s = .next t ∧ t.pc.toNat = nnn.toNat ∧ t.dt.toNat = s.dt.toNat - 1 ∧ t.st.toNat = s.st.toNat - 1 ∧
      t.redraw = false := by
  have hexec : exec (.jp nnn) (beginCycle s) = .next ((beginCycle s).setPc (addrImm nnn)) := rfl
  obtain ⟨hdt, hst, -⟩ := endCycle_of_completed (u := (beginCycle s).setPc (addrImm nnn)) (by simp)
  exact ⟨_, by rw [step_of_fetches hi, hexec, finish], by simp, by simpa using hdt, by simpa using hst, by simp⟩

/-- A cycle of a parked machine leaves it parked and counts its timers down; beside them it changes `REDRAW`, which it
clears, and its own inputs and outputs. -/
theorem Parked.step_eq_next (h : Parked s) :
    ∃ t, step s = .next t ∧ Parked t ∧ t.dt.toNat = s.dt.toNat - 1 ∧ t.st.toNat = s.st.toNat - 1 ∧
      t.redraw = false ∧ Frame [] ([.dt, .st, .redraw] ++ cycleParts) s t := by
  obtain ⟨nnn, hnnn, hi⟩ := h
  obtain ⟨t, hstep, htpc, hdt, hst, hredraw⟩ := step_jp hi
  obtain ⟨hregs, hkept⟩ := step_frame hi hstep
  have hpc : t.pc.toNat = s.pc.toNat := htpc.trans hnnn
  have hparked : Parked t := by
    obtain ⟨hfault, hlast, hdec⟩ := hi
    exact ⟨nnn, htpc.symm, .of_kept hfault (hkept .fault (by simp [writes]) (by decide))
      (hkept .mem (by simp [writes]) (by decide)) hpc (Nat.le_of_lt_succ hlast) hdec⟩
  refine ⟨t, hstep, hparked, hdt, hst, hredraw, fun r _ => hregs r id, fun p hp => ?_⟩
  by_cases hp_pc : p = .pc
  · rw [hp_pc]
    exact BitVec.eq_of_toNat_eq hpc
  · exact (hkept p (by simpa [writes] using hp_pc) (by simp_all)).same

end Sys2Proof.Machine
end

section
/-! The statements of 70_reset_and_hazards.md. -/
namespace Sys2Proof.Machine

/-- Settles O59, by induction on the cycles: each leaves a machine that is parked, with its timers one less and `REDRAW`
cleared. -/
theorem parkedMachineStaysParked : Obligations.ParkedMachineStaysParked := by
  intro k
  induction k with
  | zero => exact fun s h => ⟨s, run_zero s, h, rfl, rfl, nofun, Frame.refl [] _ s⟩
  | succ k ih =>
    intro s h
    obtain ⟨u, hstep, hu, hdt, hst, hredraw, hframe⟩ := h.step_eq_next
    obtain ⟨t, hrun, ht, hdt', hst', hredraw', hframe'⟩ := ih u hu
    refine ⟨t, (run_succ hstep).trans hrun, ht, by omega, by omega, fun _ => ?_, hframe.trans hframe'⟩
    -- The first cycle clears `REDRAW`, also where it is the only one.
    obtain rfl | hk := Nat.eq_zero_or_pos k
    · obtain rfl := Host.Outcome.next.inj hrun
      exact hredraw
    · exact hredraw' hk

end Sys2Proof.Machine
end

section
/-! The opcode map and the decoder (30_encoding.md R54 to R57), in both directions: what each row selects, what the
instructions encode to, and which opcodes are left over. -/
namespace Sys2Proof.Machine

/-! ### What a row of the map selects (R54, R55) -/

/-- Every row of the map decodes what it selects to its own instruction: the first clause of each instruction's
statement, in the order of the table. -/
theorem exists_selects : ∀ r ∈ opcodeTable, ∃ mk, Selects r.mask r.pattern mk ∧ ∀ w, (mk w).row = some r := by
  simp only [opcodeTable, List.cons_append, List.nil_append, List.forall_mem_cons]
  exact ⟨⟨_, clearScreenZeroesCells.1, fun _ => rfl⟩, ⟨_, retPopsPc.1, fun _ => rfl⟩,
    ⟨_, jumpSetsPc.1, fun _ => rfl⟩, ⟨_, callPushesPc.1, fun _ => rfl⟩,
    ⟨_, skipIfEqualImmediate.1, fun _ => rfl⟩, ⟨_, skipIfNotEqualImmediate.1, fun _ => rfl⟩,
    ⟨_, skipIfRegistersEqual.1, fun _ => rfl⟩, ⟨_, loadImmediateSetsVx.1, fun _ => rfl⟩,
    ⟨_, addImmediateWraps.1, fun _ => rfl⟩, ⟨_, copyRegister.1, fun _ => rfl⟩, ⟨_, orRegister.1, fun _ => rfl⟩,
    ⟨_, andRegister.1, fun _ => rfl⟩, ⟨_, xorRegister.1, fun _ => rfl⟩, ⟨_, addRegisterSetsCarry.1, fun _ => rfl⟩,
    ⟨_, subtractFlagFirst.1, fun _ => rfl⟩, ⟨_, shiftRightFlagFirst.1, fun _ => rfl⟩,
    ⟨_, reverseSubtractFlagFirst.1, fun _ => rfl⟩, ⟨_, shiftLeftFlagFirst.1, fun _ => rfl⟩,
    ⟨_, skipIfRegistersDiffer.1, fun _ => rfl⟩, ⟨_, loadIndexSetsI.1, fun _ => rfl⟩,
    ⟨_, jumpOffsetAddsV0.1, fun _ => rfl⟩, ⟨_, randomIsMaskedDraw.1, fun _ => rfl⟩,
    ⟨_, drawXorsSprite.1, fun _ => rfl⟩, ⟨_, skipIfKeyPressed.1, fun _ => rfl⟩,
    ⟨_, skipIfKeyNotPressed.1, fun _ => rfl⟩, ⟨_, readDelayTimer.1, fun _ => rfl⟩,
    ⟨_, keyWaitOrKeyNumber.1, fun _ => rfl⟩, ⟨_, setDelayTimer.1, fun _ => rfl⟩,
    ⟨_, setSoundTimer.1, fun _ => rfl⟩, ⟨_, addIndexWrapsAt65536.1, fun _ => rfl⟩,
    ⟨_, fontIndexIsFiveTimesVx.1, fun _ => rfl⟩, ⟨_, bcdStoresThreeDigits.1, fun _ => rfl⟩,
    ⟨_, storeRegistersExclusive.1, fun _ => rfl⟩, ⟨_, loadRegistersExclusive.1, fun _ => rfl⟩, nofun⟩

/-- A row of the map selects exactly the opcodes that decode to its instruction. -/
theorem and_mask_eq_pattern_iff {w : Word} {r : Row} (hr : r ∈ opcodeTable) :
    w &&& r.mask = r.pattern ↔ (decodeWord w).row = some r := by
  refine ⟨fun hsel => ?_, fun hrow => (row_decodeWord hrow).2⟩
  obtain ⟨mk, hmk, hrow⟩ := exists_selects r hr
  rw [hmk w hsel, hrow]

theorem recognized_eq_false {w : Word} : recognized w = false ↔ ∀ r ∈ opcodeTable, w &&& r.mask ≠ r.pattern := by
  simp [recognized, Row.selects]

/-! ### Decoding an encoded instruction (R53) -/

/-- Each instruction is read back from the fields of its format; the fallback, by the opcode that no row selects. -/
theorem decodeWord_encodeWord {i : Instr} (h : i.wf = true) : decodeWord (encodeWord i) = i := by
  cases i with
  | unrecognized opcode =>
    have hnone : recognized opcode = false := by simpa [Instr.wf] using h
    exact decodeWord_of_no_row (recognized_eq_false.1 hnone)
  | cls | ret => rfl
  | jp nnn | call nnn | ldI nnn | jpV0 nnn => simp [encodeWord, decodeWord]
  | seImm x nn | sneImm x nn | ldImm x nn | addImm x nn | rnd x nn => simp [encodeWord, decodeWord]
  | drw x y n => simp [encodeWord, decodeWord]
  | seReg x y => simp [encodeWord, decodeWord, decode5]
  | sneReg x y => simp [encodeWord, decodeWord, decode9]
  | ldReg x y | orReg x y | andReg x y | xorReg x y | addReg x y | subReg x y | shr x y | subnReg x y | shl x y =>
    simp [encodeWord, decodeWord, decode8]
  | skp x | sknp x => simp [encodeWord, decodeWord, decodeE]
  | ldVxDt x | ldVxKey x | ldDtVx x | ldStVx x | addI x | ldFont x | ldBcd x | storeRegs x | loadRegs x =>
    simp [encodeWord, decodeWord, decodeF]

/-- The high byte and the low byte of a word make the word (20_memory.md R35). -/
theorem wordOfBytes_high_low (w : Word) : wordOfBytes (w.extractLsb' 8 8) (w.extractLsb' 0 8) = w := by
  refine BitVec.eq_of_toNat_eq ?_
  rw [toNat_wordOfBytes, BitVec.extractLsb'_toNat, BitVec.extractLsb'_toNat, Nat.shiftRight_eq_div_pow]
  omega

/-- Decoding reads the word whose bytes stand at the head of the list, and leaves the bytes after it (R50). -/
theorem decode_bytesOfWord_append (w : Word) (rest : List Byte) :
    decode (bytesOfWord w ++ rest) = .ok (decodeWord w, rest) := by
  simp only [bytesOfWord, List.cons_append, List.nil_append, decode, wordOfBytes_high_low]

/-- The decoder gives well-formed instructions only: an opcode that it gives as `unrecognized` has no row (R56). -/
theorem wf_decodeWord (w : Word) : (decodeWord w).wf = true := by
  cases h : decodeWord w with
  | unrecognized opcode =>
    have hopcode : opcode = w := by simpa [h, encodeWord] using encodeWord_decodeWord w
    have hnone : recognized opcode = false := recognized_eq_false.2 fun r hr hsel => by
      rw [hopcode, and_mask_eq_pattern_iff hr, h] at hsel
      cases hsel
    rw [Instr.wf, hnone]
    rfl
  | _ => rfl

/-! ### The opcodes that are left over (R57) -/

section
variable {w : Word}

theorem decode0_eq_unrecognized : decode0 w = .unrecognized w ↔ w.toNat ≠ 0x00E0 ∧ w.toNat ≠ 0x00EE := by
  simp only [decode0, ← BitVec.toNat_inj]
  split_ifs <;> simp_all

theorem decode5_eq_unrecognized : decode5 w = .unrecognized w ↔ w.toNat % 16 ≠ 0 := by
  simp only [decode5, Fin.ext_iff, val_fieldN]
  split_ifs <;> simp_all

theorem decode9_eq_unrecognized : decode9 w = .unrecognized w ↔ w.toNat % 16 ≠ 0 := by
  simp only [decode9, Fin.ext_iff, val_fieldN]
  split_ifs <;> simp_all

theorem decode8_eq_unrecognized :
    decode8 w = .unrecognized w ↔ w.toNat % 16 = 0x8 ∨ w.toNat % 16 = 0x9 ∨ w.toNat % 16 = 0xA ∨ w.toNat % 16 = 0xB ∨
      w.toNat % 16 = 0xC ∨ w.toNat % 16 = 0xD ∨ w.toNat % 16 = 0xF := by
  rw [decode8, val_fieldN]
  split
  case h_10 =>
    simp only [imp_false, true_iff] at *
    omega
  all_goals simp_all

theorem decodeE_eq_unrecognized :
    decodeE w = .unrecognized w ↔ w.toNat % 256 ≠ 0x9E ∧ w.toNat % 256 ≠ 0xA1 := by
  simp only [decodeE, ← BitVec.toNat_inj, toNat_fieldNn]
  split_ifs <;> simp_all

theorem decodeF_eq_unrecognized :
    decodeF w = .unrecognized w ↔ w.toNat % 256 ≠ 0x07 ∧ w.toNat % 256 ≠ 0x0A ∧ w.toNat % 256 ≠ 0x15 ∧
      w.toNat % 256 ≠ 0x18 ∧ w.toNat % 256 ≠ 0x1E ∧ w.toNat % 256 ≠ 0x29 ∧ w.toNat % 256 ≠ 0x33 ∧
      w.toNat % 256 ≠ 0x55 ∧ w.toNat % 256 ≠ 0x65 := by
  simp only [decodeF, ← BitVec.toNat_inj, toNat_fieldNn]
  split_ifs <;> simp_all

end

end Sys2Proof.Machine
end

section
/-! The statements of 30_encoding.md sections 1 and 2, and the decode vectors of 95_test_vectors.md section 2.1. -/
namespace Sys2Proof.Machine

/-- Settles O39: the bytes are those of the instruction's word, which decodes to it. -/
theorem decodeEncodeRoundTrip : Obligations.DecodeEncodeRoundTrip := by
  intro i rest hwf
  rw [encode, decode_bytesOfWord_append, decodeWord_encodeWord hwf]

/-- Settles O40: `decodeWord` loses no bit of the opcode, and the fallback that it gives has no row. -/
theorem encodeDecodeRoundTrip : Obligations.EncodeDecodeRoundTrip :=
  fun w => ⟨wf_decodeWord w, encodeWord_decodeWord w⟩

/-- Settles O37: two rows that select one opcode are both the row of what it decodes to. -/
theorem decodeFollowsOpcodeTable : Obligations.DecodeFollowsOpcodeTable := by
  refine ⟨fun w r => and_mask_eq_pattern_iff, fun w r q hr hq hrsel hqsel => ?_, fun w => decodeWord_of_no_row⟩
  rw [and_mask_eq_pattern_iff hr] at hrsel
  rw [and_mask_eq_pattern_iff hq] at hqsel
  exact Option.some.inj (hrsel.symm.trans hqsel)

/-- Settles O38, by the leading digit: only 0, 5, 8, 9, E and F have opcodes left over, one form each. -/
theorem unrecognizedOpcodesAreThoseListed : Obligations.UnrecognizedOpcodesAreThoseListed := by
  intro w
  rw [decodeWord, toNat_fieldOp]
  split
  case h_1 h => simp [unrecognizedForm, h, decode0_eq_unrecognized]
  case h_6 h => simp [unrecognizedForm, h, decode5_eq_unrecognized]
  case h_9 h => simp [unrecognizedForm, h, decode8_eq_unrecognized]
  case h_10 h => simp [unrecognizedForm, h, decode9_eq_unrecognized]
  case h_15 h => simp [unrecognizedForm, h, decodeE_eq_unrecognized]
  case h_16 =>
    have hlast : w.toNat / 4096 = 0xF := by
      simp only [imp_false] at *
      omega
    simp [unrecognizedForm, hlast, decodeF_eq_unrecognized]
  all_goals
    next h => simp [unrecognizedForm, h]

/-- Settles O36, field by field. -/
theorem fieldsAreBitRanges : Obligations.FieldsAreBitRanges :=
  fun w => ⟨toNat_fieldOp w, val_fieldX w, val_fieldY w, val_fieldN w, toNat_fieldNn w, toNat_fieldNnn w⟩

/-- Settles O41: each word is evaluated. -/
theorem specWordsDecode : Obligations.SpecWordsDecode := by
  unfold Obligations.SpecWordsDecode
  decide

end Sys2Proof.Machine
end

section
/-! The fault record (60_exceptions.md R130, 10_state.md R22, R23): what recording a fault leaves, what a faulted machine
answers, and that no cycle which goes well touches the record. -/
namespace Sys2Proof.Machine

/-- Recording a fault changes the fault record and the outputs only. -/
theorem frame_recordFault (f : Fault) (s : State) : Frame [] [.fault, .out] s (recordFault f s) := by
  refine ⟨fun _ _ => rfl, fun p hp => Part.Kept.same ?_⟩
  cases p with
  | fault | out => simp at hp
  | _ => rfl

/-- A step of a faulted machine answers the recorded fault again. -/
theorem step_of_fault {s : State} {f : Fault} (h : s.fault = some f) : step s = .fault f := by
  rw [step, h]

/-- No cycle that gives a next state touches the fault record. -/
theorem step_keeps_fault {s t : State} (h : step s = .next t) : t.fault = s.fault := by
  obtain ⟨-, u, hexec, rfl⟩ := exec_of_step_eq_next h
  have hwrites : .fault ∉ writes (decodeWord (opcodeAt s s.pc.toNat)) := by
    cases decodeWord (opcodeAt s s.pc.toNat) <;> simp [writes]
  have hexec_kept : u.fault = (beginCycle s).fault := exec_keeps hexec .fault hwrites
  have hend_kept : (endCycle u).fault = u.fault := endCycle_keeps u (p := .fault) (by decide)
  rw [hend_kept, hexec_kept, beginCycle_fault]

end Sys2Proof.Machine
end

section
/-! The statement of 60_exceptions.md sections 1 and 7. -/
namespace Sys2Proof.Machine

/-- Settles O48: the state after a faulting cycle is the one before it with the fault recorded, and a recorded fault is
tested first by every operation but reset. -/
theorem faultIsPreciseAndSticky : Obligations.FaultIsPreciseAndSticky := by
  refine ⟨fun input s t f h => ?_, fun s t h => ?_⟩
  · obtain ⟨-, -, rfl⟩ := cycleCall_eq_faulted.1 h
    have hfault : (recordFault f s).fault = some f := recordFault_fault s f
    exact ⟨hfault, recordFault_out s f, frame_recordFault f s, recordFault_mem s f, step_of_fault hfault,
      fun _ => cycleCall_of_fault hfault, fun _ => loadProgram_of_fault (by simp), rfl⟩
  · obtain ⟨hs, -⟩ := step_eq_next.1 h
    exact ⟨hs, (step_keeps_fault h).trans hs⟩

end Sys2Proof.Machine
end
